-- ==== Sys2Proof/Word.lean ====
section
/-! DEFINITION. The widths the spec uses (00_scope.md R10, R11): bytes, 16-bit wire fields, 32-bit registers, and the
22-bit byte addresses of the block window (20_memory.md R60). -/

namespace Sys2Proof

/-- One byte of a frame, a buffer or a bus lane. -/
abbrev Byte := BitVec 8

/-- A 16-bit wire field (00_scope.md R10). -/
abbrev Half := BitVec 16

/-- A 32-bit register, command word or bus data word (10_state.md R23). -/
abbrev Word := BitVec 32

/-- A byte string (00_scope.md R12). -/
abbrev Bytes := List Byte

/-- A byte address of the block window (20_memory.md R60). -/
abbrev Addr := BitVec 22

end Sys2Proof
end

