-- ==== Sys2Proof/Syntax.lean ====
section
/-! DEFINITION. The instructions (the rows of spec/opcode_table.json, 30_encoding.md R91 to R93) and the host's bus
operations (30_encoding.md R107). -/

namespace Sys2Proof

/-- One constructor per row of the opcode table. The first three are command words (R91, R92), the others register-write
actions (R93). -/
inductive Instr where
  /-- ASSEMBLE, command word 0x00000001 (41_assemble.md R160). -/
  | assemble
  /-- FRAGMENT, command word 0x00000002 (42_fragment.md R190). -/
  | fragment
  /-- INVALID, any other command word, with its fields RSV[31:4] and OPC[3:0] (43_host_control.md R222). -/
  | invalid (rsv : BitVec 28) (opc : BitVec 4)
  /-- SOFT_RESET, a CTRL write with bit 1 set; the written IE bit is ignored (43_host_control.md R225). -/
  | softReset
  /-- SET_IE, a CTRL write with bit 1 clear; IE takes written bit 0 (43_host_control.md R225). -/
  | setIe (ie : Bool)
  /-- CLR_DONE, a STATUS write with bit 1 set (43_host_control.md R226). -/
  | clrDone
  /-- CLR_WERR, a STATUS write with bit 2 set (43_host_control.md R226). -/
  | clrWerr
deriving DecidableEq, Repr

/-- The three registers whose written word is decoded to instructions (R90, R93). -/
inductive Port where
  /-- CMD, offset 0x0C. -/
  | cmd
  /-- CTRL, offset 0x04. -/
  | ctrl
  /-- STATUS, offset 0x08. -/
  | status
deriving DecidableEq, Repr

/-- An encoded instruction: the register written and the data word, all strobes set. -/
structure Encoded where
  port : Port
  data : Word
deriving DecidableEq, Repr

/-- One operation of a host program (30_encoding.md R107). WR is wr with all four strobes; POLL repeats its read until
the masked data equals the value. -/
inductive HostOp where
  /-- RD a. -/
  | rd (a : Addr)
  /-- WRS a, v, s (WR a, v when s is 0xF). -/
  | wr (a : Addr) (v : Word) (strb : BitVec 4)
  /-- POLL a, m, v. -/
  | poll (a : Addr) (mask v : Word)
deriving DecidableEq, Repr

/-- The pseudo-instructions of a host program (30_encoding.md R108). -/
inductive Pseudo where
  /-- One bus operation as it is. -/
  | op (o : HostOp)
  /-- ASSEMBLE f. -/
  | assemble (f : Word)
  /-- FRAGMENT m, seq, ack, size. -/
  | fragment (m seq ack size : Word)
  /-- WAITDONE. -/
  | waitDone
  /-- CLRDONE. -/
  | clrDone
  /-- CLRWERR. -/
  | clrWerr
  /-- SRESET. -/
  | sReset
  /-- IRQON. -/
  | irqOn
  /-- DESC k, off, len. -/
  | desc (k : Nat) (off len : Word)
  /-- LOAD base, b0 ... b(n-1). -/
  | load (base : Addr) (bytes : Bytes)
deriving DecidableEq, Repr

/-- Whose move comes next (00_scope.md R17, 60_exceptions.md R247, 70_reset_and_hazards.md R270). -/
inductive Turn where
  /-- The block receives the host's next access. -/
  | host
  /-- The engine may take its COMPLETE step. -/
  | engine
  /-- The reset input takes this level: asserted (true) or released. -/
  | reset (asserted : Bool)
deriving DecidableEq, Repr

end Sys2Proof
end

