-- ==== Sys2Proof/WellFormed.lean ====
section
/-! DEFINITION. Which instruction terms the encoding has a word for (30_encoding.md R91, R92). -/

namespace Sys2Proof

/-- INVALID stands for the words that are neither ASSEMBLE's nor FRAGMENT's: its fields may not spell 0x00000001 or
0x00000002 (30_encoding.md R92). Every other term is well formed: its one field takes every value. -/
def Instr.wellFormed : Instr → Bool
  | .assemble => true
  | .fragment => true
  | .invalid rsv opc => !(rsv == 0 && (opc == 1 || opc == 2))
  | .softReset => true
  | .setIe _ => true
  | .clrDone => true
  | .clrWerr => true

end Sys2Proof
end

