-- ==== Sys2Proof/Decode.lean ====
section
/-! DEFINITION. Decoding of the words written to CMD, CTRL and STATUS (30_encoding.md R90 to R93, 43_host_control.md
R221), total and rejecting by name, and after it the encoder. -/

namespace Sys2Proof

/-- The byte offset of a port's register (10_state.md R23). -/
def Port.offset : Port → Nat
  | .cmd => 0x0C
  | .ctrl => 0x04
  | .status => 0x08

/-- The port at a register offset, if writes there are decoded to instructions. -/
def Port.ofOffset : Nat → Option Port
  | 0x0C => some .cmd
  | 0x04 => some .ctrl
  | 0x08 => some .status
  | _ => none

/-- The OPC field of a command word, bits 3:0 (30_encoding.md R90). -/
def opcField (w : Word) : BitVec 4 := w.extractLsb' 0 4

/-- The RSV field of a command word, bits 31:4 (30_encoding.md R90). -/
def rsvField (w : Word) : BitVec 28 := w.extractLsb' 4 28

/-- A command word, compared as a whole 32-bit word (43_host_control.md R221). Total: every word that is not a command
is INVALID (30_encoding.md R92). -/
def decodeCommand (w : Word) : Instr :=
  if w = 0x00000001#32 then .assemble
  else if w = 0x00000002#32 then .fragment
  else .invalid (rsvField w) (opcField w)

/-- A word written to CTRL, after the strobe rule (30_encoding.md R93, 43_host_control.md R225). -/
def decodeCtrl (w : Word) : Instr :=
  if w.getLsbD 1 then .softReset else .setIe (w.getLsbD 0)

/-- A word written to STATUS, after the strobe rule: both clears, either, or none (30_encoding.md R93,
43_host_control.md R226). -/
def decodeStatus (w : Word) : List Instr :=
  (if w.getLsbD 1 then [.clrDone] else []) ++ (if w.getLsbD 2 then [.clrWerr] else [])

/-- The instructions a written word stands for at each port. -/
def decode (e : Encoded) : List Instr :=
  match e.port with
  | .cmd => [decodeCommand e.data]
  | .ctrl => [decodeCtrl e.data]
  | .status => decodeStatus e.data

/-- Why a register write carries no instruction. -/
inductive DecodeError where
  /-- The offset is none of CMD, CTRL, STATUS: the write only stores (43_host_control.md R223). -/
  | notAnActionRegister (offset : Nat)
deriving DecidableEq, Repr

/-- The instructions of a word written to the register at an offset, rejecting by name every other register. -/
def decodeWrite (offset : Nat) (w : Word) : Except DecodeError (List Instr) :=
  match Port.ofOffset offset with
  | some p => .ok (decode ⟨p, w⟩)
  | none => .error (.notAnActionRegister offset)

/-- The register write that stands for an instruction (30_encoding.md R91 to R93), don't-care bits 0. -/
def encode : Instr → Encoded
  | .assemble => ⟨.cmd, 0x00000001#32⟩
  | .fragment => ⟨.cmd, 0x00000002#32⟩
  | .invalid rsv opc => ⟨.cmd, rsv ++ opc⟩
  | .softReset => ⟨.ctrl, 0x00000002#32⟩
  | .setIe ie => ⟨.ctrl, if ie then 0x00000001#32 else 0x00000000#32⟩
  | .clrDone => ⟨.status, 0x00000002#32⟩
  | .clrWerr => ⟨.status, 0x00000004#32⟩

/-- The match and mask columns of spec/opcode_table.json, which the encoded word fits; INVALID's row names no fixed bit. -/
def Instr.tableMatch : Instr → Word × Word
  | .assemble => (0x00000001#32, 0xFFFFFFFF#32)
  | .fragment => (0x00000002#32, 0xFFFFFFFF#32)
  | .invalid _ _ => (0x00000000#32, 0x00000000#32)
  | .softReset => (0x00000002#32, 0x00000002#32)
  | .setIe _ => (0x00000000#32, 0x00000002#32)
  | .clrDone => (0x00000002#32, 0x00000002#32)
  | .clrWerr => (0x00000004#32, 0x00000004#32)

/-- The instruction the decoder reads from a table word of nbits bits. The table's words do not say which register they
are written to, and different rows share words; a word on its own is read as what is written to CMD, the one register
whose every word is an instruction (log 1). A word that does not fit 32 bits is no command. -/
def decodeTableWord (nbits w : Nat) : Option Instr :=
  if w % 2 ^ nbits < 2 ^ 32 then some (decodeCommand (BitVec.ofNat 32 (w % 2 ^ nbits))) else none

end Sys2Proof
end

