-- ==== Sys2Proof/Machine/State.lean ====
section
/-! DEFINITION. The state of the block (10_state.md R20 to R45) as plain data, why a step may stop, and the state after a
hard reset. -/

namespace Sys2Proof.Machine

/-- Why the machine would stop with a fault. The block has none: no host access faults, no command traps, and the engine
never stops (20_memory.md R62, 60_exceptions.md R245). No constructor, so no step raises one; safe. -/
inductive Fault where
deriving DecidableEq, Repr

/-- Why an instruction would have no meaning. -/
inductive Refusal where
  /-- An instruction of the opcode table without a meaning yet. Every row has its meaning, so nothing raises this; safe. -/
  | notModelled (mnemonic : String)
deriving DecidableEq, Repr

/-- A byte memory: the bytes written since its contents were last unspecified, and the number of the draw that gives
every other byte (log 4). -/
structure Memory where
  /-- Which draw of Config.freeByte an unlisted byte reads as. -/
  draw : Nat
  /-- The written bytes, addresses strictly rising. -/
  cells : List Host.Cell
deriving DecidableEq, Repr

/-- The block, the host's pending operations and the order of moves. Constants (ID, CAP_*), CMD, reserved bits and the
IRQ output hold no state (10_state.md R24, R27, R36, 60_exceptions.md R250). -/
structure State where
  /-- CTRL.IE (10_state.md R25). -/
  ie : Bool
  /-- STATUS.BUSY (10_state.md R26). -/
  busy : Bool
  /-- STATUS.DONE (10_state.md R26). -/
  done : Bool
  /-- STATUS.WERR (10_state.md R26). -/
  werr : Bool
  /-- ERR.ERR_CODE (10_state.md R28). -/
  errCode : BitVec 8
  /-- ERR.ERR_FRAME (10_state.md R28). -/
  errFrame : BitVec 16
  /-- ASM_NFRAMES.F (10_state.md R29). -/
  asmNframes : BitVec 16
  /-- FRAG_MTU.M (10_state.md R30). -/
  fragMtu : BitVec 16
  /-- FRAG_SEQACK.START_SEQ (10_state.md R31). -/
  startSeq : BitVec 8
  /-- FRAG_SEQACK.START_ACK (10_state.md R31). -/
  startAck : BitVec 8
  /-- PKT_SIZE (10_state.md R32). -/
  pktSize : BitVec 32
  /-- RES_CID[15:0] (10_state.md R33). -/
  resCid : BitVec 16
  /-- RES_LEN (10_state.md R34). -/
  resLen : BitVec 32
  /-- RES_NFRAMES (10_state.md R35). -/
  resNframes : BitVec 32
  /-- The command latch (10_state.md R42). -/
  latch : BitVec 32
  /-- DESC, the descriptor table, byte by byte (10_state.md R39). -/
  desc : Memory
  /-- IN_BUF (10_state.md R40). -/
  inBuf : Memory
  /-- OUT_BUF (10_state.md R41). -/
  outBuf : Memory
  /-- The level of the reset input: true while it is asserted (70_reset_and_hazards.md R270; log 15). -/
  resetHeld : Bool
  /-- The model's own: the number of the next draw of free values (log 5). -/
  draws : Nat
  /-- The model's own: host operations the block has not received yet, in order (log 2). -/
  inbox : List HostOp
  /-- The model's own: who moves next (log 3). -/
  sched : List Turn
  /-- The model's own: the data words host reads returned, newest first (log 13). -/
  replies : List Word
deriving DecidableEq, Repr

/-- The block right after a hard reset, the reset input released (10_state.md R45, 70_reset_and_hazards.md R270), nothing
pending. The latch
(log 6) and the draw numbers (log 5) are DESIGN CHOICE values. -/
def State.reset : State where
  ie := false
  busy := false
  done := false
  werr := false
  errCode := 0
  errFrame := 0
  asmNframes := 0
  fragMtu := 0
  startSeq := 0
  startAck := 0
  pktSize := 0
  resCid := 0
  resLen := 0
  resNframes := 0
  latch := 0
  desc := ⟨0, []⟩
  inBuf := ⟨1, []⟩
  outBuf := ⟨2, []⟩
  resetHeld := false
  draws := 3
  inbox := []
  sched := []
  replies := []

end Sys2Proof.Machine
end

