-- ==== Sys2Proof/Machine/Flags.lean ====
section
/-! DEFINITION. The flags and the words they are read in: CTRL, STATUS, ERR, the IRQ output and the error codes
(10_state.md R25 to R28, R38, 60_exceptions.md R240, R242, R250). -/

namespace Sys2Proof.Machine

/-- The error kinds (60_exceptions.md R240). -/
inductive ErrKind where
  | empty
  | lengthMismatch
  | checksumMismatch
  | channelMismatch
  | sequenceMismatch
  | badSegmentation
  | totalLengthMismatch
  | malformed
  | invalidCommand
  | capacity
deriving DecidableEq, Repr

/-- The code of an error kind in ERR.ERR_CODE (60_exceptions.md R240). -/
def ErrKind.code : ErrKind → BitVec 8
  | .empty => 1
  | .lengthMismatch => 2
  | .checksumMismatch => 3
  | .channelMismatch => 4
  | .sequenceMismatch => 5
  | .badSegmentation => 6
  | .totalLengthMismatch => 7
  | .malformed => 8
  | .invalidCommand => 9
  | .capacity => 10

/-- What `fail E(k)` reports: the kind and the frame index, none for `-` (00_scope.md R13). -/
structure Failure where
  kind : ErrKind
  frame : Option Nat
deriving DecidableEq, Repr

/-- ERR.ERR_FRAME of a failure (60_exceptions.md R242). -/
def Failure.errFrame (e : Failure) : BitVec 16 :=
  match e.frame with
  | none => 0xFFFF
  | some k => BitVec.ofNat 16 k

/-- A flag as a bit of a register word. -/
def flagBit (b : Bool) (i : Nat) : Word := if b then BitVec.twoPow 32 i else 0

/-- CTRL as read: IE in bit 0, everything else 0 (10_state.md R25). -/
def State.ctrlWord (s : State) : Word := flagBit s.ie 0

/-- STATUS as read (10_state.md R26). -/
def State.statusWord (s : State) : Word := flagBit s.busy 0 ||| flagBit s.done 1 ||| flagBit s.werr 2

/-- ERR as read: ERR_FRAME, a zero byte, ERR_CODE (10_state.md R28). -/
def State.errWord (s : State) : Word := s.errFrame ++ 0#8 ++ s.errCode

/-- FRAG_SEQACK as read (10_state.md R31). -/
def State.seqackWord (s : State) : Word := 0#16 ++ s.startAck ++ s.startSeq

/-- The IRQ output, STATUS.DONE & CTRL.IE (60_exceptions.md R250). -/
def State.irq (s : State) : Bool := s.done && s.ie

end Sys2Proof.Machine
end

