-- ==== Sys2Proof/Config.lean ====
section
/-! DEFINITION. The implementation parameters of 00_scope.md R9 with their constraints, and the free values: constants
without a body that stand for what the spec leaves unspecified (93_implementation_defined.md section 3). This block's
parameter values are Sys2Proof.Machine.block in Machine/Frame.lean. -/

namespace Sys2Proof.Config

/-- The parameters of 00_scope.md R9. -/
structure Params where
  /-- MAX_FRAMES, entries of the descriptor table. -/
  maxFrames : Nat
  /-- IN_BUF_SIZE in bytes. -/
  inBufSize : Nat
  /-- OUT_BUF_SIZE in bytes. -/
  outBufSize : Nat
  /-- FCS_TABLE, 256 entries of 16 bits. -/
  fcsTable : BitVec 8 → BitVec 16
  /-- SAR_CLASS_MASK. -/
  sarClassMask : BitVec 16
  /-- EMPTY_ACK_FN. -/
  emptyAck : BitVec 8 → BitVec 6

/-- The constraint column of 00_scope.md R9: a value outside it is not a configuration of this block. -/
structure Params.Valid (p : Params) : Prop where
  maxFrames_pos : 1 ≤ p.maxFrames
  maxFrames_le : p.maxFrames ≤ 8192
  inBuf_ge : 65539 ≤ p.inBufSize
  inBuf_le : p.inBufSize ≤ 0x100000
  outBuf_ge : 65539 ≤ p.outBufSize
  outBuf_le : p.outBufSize ≤ 0x100000
  mask : p.sarClassMask = 0xC000 ∨ p.sarClassMask = 0xE000

/-- DESIGN CHOICE (log 4, 7, 8): freeByte d a is the unspecified value of byte a in draw number d
(93_implementation_defined.md U-1 to U-4). It has no body: no proof can learn its value. -/
opaque freeByte : Nat → Nat → BitVec 8

/-- DESIGN CHOICE (log 6): freeWord d is the unspecified command latch after a soft reset, in draw number d
(93_implementation_defined.md U-5). It has no body. -/
opaque freeWord : Nat → BitVec 32

end Sys2Proof.Config
end

