-- ==== Sys2Proof/Machine/Operands.lean ====
section
/-! DEFINITION. Operand assembly: byte strings, little-endian fields, frame and packet fields, bus lanes
(00_scope.md R12, 20_memory.md R63 to R66, 30_encoding.md R95 to R105, 40_frame.md R130, R135, R136). -/

namespace Sys2Proof.Machine

/-- Byte i of a byte string; callers read inside the string only (40_frame.md R130; log 16). -/
def byteAt (b : Bytes) (i : Nat) : Byte := b.getD i 0

/-- LE16(b, i) (00_scope.md R12, 20_memory.md R65). -/
def le16 (b : Bytes) (i : Nat) : Half := byteAt b (i + 1) ++ byteAt b i

/-- bytesLE16(v) (00_scope.md R12). -/
def bytesLE16 (v : Half) : Bytes := [v.extractLsb' 0 8, v.extractLsb' 8 8]

/-- The sub-string b[i..j) (00_scope.md R12). -/
def slice (b : Bytes) (i j : Nat) : Bytes := (b.drop i).take (j - i)

/-- A bounded read of one byte; none is INSUFFICIENT (40_frame.md R130). -/
def boundedRead8 (b : Bytes) (i : Nat) : Option Byte :=
  if i + 1 ≤ b.length then some (byteAt b i) else none

/-- A bounded read of a 16-bit field; none is INSUFFICIENT (40_frame.md R130). -/
def boundedRead16 (b : Bytes) (i : Nat) : Option Half :=
  if i + 2 ≤ b.length then some (le16 b i) else none

/-! Frame fields (30_encoding.md R105, 40_frame.md R135). -/

/-- The length prefix, which the spec's accessor calls payload_length. -/
def lengthPrefix (f : Bytes) : Half := le16 f 0

/-- The channel id. -/
def channelId (f : Bytes) : Half := le16 f 2

/-- The control word: sequence byte in bits 7:0, ack/segmentation byte in bits 15:8 (30_encoding.md R97). -/
def controls (f : Bytes) : Half := le16 f 4

/-- The raw sequence byte (30_encoding.md R98). -/
def seqByte (f : Bytes) : Byte := byteAt f 4

/-- The SAR code, bits 7:6 of byte 5 (30_encoding.md R99). -/
def sarCode (f : Bytes) : BitVec 2 := (byteAt f 5).extractLsb' 6 2

/-- The ack field, bits 5:0 of byte 5 (30_encoding.md R99). -/
def ackField (f : Bytes) : BitVec 6 := (byteAt f 5).extractLsb' 0 6

/-- The total packet length of a format S frame (30_encoding.md R95). -/
def totalLength (f : Bytes) : Half := le16 f 6

/-- The stored checksum, the last two bytes (40_frame.md R133). -/
def storedChecksum (f : Bytes) : Half := le16 f (f.length - 2)

/-- The bytes a frame's checksum covers, f[0..N-2) (40_frame.md R133). -/
def coveredBytes (f : Bytes) : Bytes := f.take (f.length - 2)

/-- The bytes of a frame before its payload: 8 in format S, 6 in formats U and C (30_encoding.md R95). -/
def headerSize (first : Bool) : Nat := if first then 8 else 6

/-- The smallest frame of a format: 10 bytes for format S, 8 for U and C (30_encoding.md R96). -/
def minFrameSize (first : Bool) : Nat := if first then 10 else 8

/-- The payload, f[8..N-2) in format S, else f[6..N-2) (40_frame.md R136). -/
def payload (f : Bytes) (first : Bool) : Bytes := slice f (headerSize first) (f.length - 2)

/-- The ack/segmentation byte {sar, a} (42_fragment.md R190). -/
def sarByte (sar : BitVec 2) (a : BitVec 6) : Byte := sar ++ a

/-- SAR code 00, unsegmented (30_encoding.md R101). -/
def sarUnsegmented : BitVec 2 := 0b00#2

/-- SAR code 01, start (30_encoding.md R101). -/
def sarStart : BitVec 2 := 0b01#2

/-- SAR code 10, end (30_encoding.md R101). -/
def sarEnd : BitVec 2 := 0b10#2

/-- SAR code 11, continuation (30_encoding.md R101). -/
def sarContinuation : BitVec 2 := 0b11#2

/-- The packet buffer bytesLE16(L) ++ bytesLE16(cid) ++ payload (30_encoding.md R100). -/
def packetBuffer (cid : Half) (pay : Bytes) : Bytes :=
  bytesLE16 (BitVec.ofNat 16 pay.length) ++ bytesLE16 cid ++ pay

/-- The recorded length of a packet buffer (30_encoding.md R105). -/
def recordedLength (pk : Bytes) : Half := le16 pk 0

/-- The channel id of a packet buffer (30_encoding.md R105). -/
def packetCid (pk : Bytes) : Half := le16 pk 2

/-! Bus lanes (20_memory.md R63, R66). -/

/-- Byte lane i of a data word, bits [8i+7:8i]. -/
def lane (w : Word) (i : Nat) : Byte := w.extractLsb' (8 * i) 8

/-- The word with the given four byte lanes. -/
def wordOfLanes (b0 b1 b2 b3 : Byte) : Word := b3 ++ b2 ++ b1 ++ b0

/-- One lane of a strobed write: the written byte where the strobe is 1, else the current byte. -/
def mergeLane (cur w : Word) (strb : BitVec 4) (i : Nat) : Byte :=
  if strb.getLsbD i then lane w i else lane cur i

/-- The word a strobed write acts as: enabled lanes from w, disabled lanes from cur (20_memory.md R66). -/
def mergeLanes (cur w : Word) (strb : BitVec 4) : Word :=
  wordOfLanes (mergeLane cur w strb 0) (mergeLane cur w strb 1) (mergeLane cur w strb 2) (mergeLane cur w strb 3)

/-- The address of the word an access at A names: A[1:0] ignored (20_memory.md R63). -/
def wordAddr (a : Addr) : Nat := a.toNat / 4 * 4

end Sys2Proof.Machine
end

