-- ==== Sys2Proof/Machine/Ops.lean ====
section
/-! DEFINITION. The named operations over memories and registers: byte memories, descriptors and frame fetch, the end of
a command (failure is the block's trap entry, 60_exceptions.md R243; success R244), command acceptance and the clearing of
DONE (the return, R249), dropped writes, soft and hard reset. -/

namespace Sys2Proof.Machine

/-! Byte memories. -/

/-- The byte a cell list holds at an address, none where nothing is written. -/
def lookupCell : List Host.Cell → Nat → Option Byte
  | [], _ => none
  | (x, y) :: rest, a => if x = a then some y else lookupCell rest a

/-- The cell list with a byte written, addresses kept strictly rising. -/
def insertCell : List Host.Cell → Nat → Byte → List Host.Cell
  | [], a, b => [(a, b)]
  | (x, y) :: rest, a, b =>
    if a < x then (a, b) :: (x, y) :: rest
    else if a = x then (a, b) :: rest
    else (x, y) :: insertCell rest a b

/-- A memory whose every byte is unspecified, in draw number d (93_implementation_defined.md U-1, U-3, U-4; log 4). -/
def Memory.unspecified (d : Nat) : Memory := ⟨d, []⟩

/-- Byte a of a memory: the byte last written, or, where nothing is written, the free value of the memory's draw
(70_reset_and_hazards.md R275; log 4). -/
def Memory.read (m : Memory) (a : Nat) : Byte := (lookupCell m.cells a).getD (Config.freeByte m.draw a)

/-- A byte written. -/
def Memory.write (m : Memory) (a : Nat) (b : Byte) : Memory := ⟨m.draw, insertCell m.cells a b⟩

/-- A byte string written from address a up: OutWrite of 00_scope.md R13. -/
def Memory.writeBytes (m : Memory) (a : Nat) : Bytes → Memory
  | [] => m
  | b :: bs => (m.write a b).writeBytes (a + 1) bs

/-- The byte string of n bytes from address a: InRead of 00_scope.md R13. -/
def Memory.readBytes (m : Memory) (a n : Nat) : Bytes := (List.range n).map fun i => m.read (a + i)

/-- The canonical form: addresses strictly rising and inside the memory's size. An unlisted address holds no written
byte, so no entry can equal what it reads as (log 4). -/
abbrev Memory.wf (size : Nat) (m : Memory) : Prop :=
  m.cells.Pairwise (fun x y => x.1 < y.1) ∧ ∀ c ∈ m.cells, c.1 < size

/-- Lane i of the word at address a, 0 above the memory's size (20_memory.md R61, R62). -/
def Memory.readLane (size : Nat) (m : Memory) (a i : Nat) : Byte := if a + i < size then m.read (a + i) else 0

/-- The little-endian word at address a (20_memory.md R64). -/
def Memory.readWord (size : Nat) (m : Memory) (a : Nat) : Word :=
  wordOfLanes (m.readLane size a 0) (m.readLane size a 1) (m.readLane size a 2) (m.readLane size a 3)

/-- Lane i of a strobed write at address a: only an enabled lane inside the memory is written (20_memory.md R62, R63). -/
def Memory.writeLane (size : Nat) (m : Memory) (a : Nat) (w : Word) (strb : BitVec 4) (i : Nat) : Memory :=
  if strb.getLsbD i = true ∧ a + i < size then m.write (a + i) (lane w i) else m

/-- A strobed write of the word at address a (20_memory.md R63, R64). -/
def Memory.writeWord (size : Nat) (m : Memory) (a : Nat) (w : Word) (strb : BitVec 4) : Memory :=
  (((m.writeLane size a w strb 0).writeLane size a w strb 1).writeLane size a w strb 2).writeLane size a w strb 3

/-! Descriptors and frame fetch. -/

/-- The size of DESC in bytes (10_state.md R39). -/
def descBytes (p : Config.Params) : Nat := 8 * p.maxFrames

/-- DescRead(k): OFFSET and LENGTH of entry k (10_state.md R39, 30_encoding.md R94). -/
def State.descRead (p : Config.Params) (s : State) (k : Nat) : Nat × Nat :=
  ((s.desc.readWord (descBytes p) (8 * k)).toNat, (s.desc.readWord (descBytes p) (8 * k + 4)).toNat)

/-- Fetch of frame k, the sum taken without wrap-around (40_frame.md R131). -/
def State.fetch (p : Config.Params) (s : State) (k : Nat) : Except Failure Bytes :=
  let d := s.descRead p k
  if d.1 + d.2 > p.inBufSize then .error ⟨.capacity, some k⟩ else .ok (s.inBuf.readBytes d.1 d.2)

/-! The end of a command. -/

/-- What a successful command leaves: RES_CID, RES_NFRAMES, the length in RES_LEN, and the bytes of OUT_BUF from 0 up. -/
structure Success where
  cid : Half
  len : Nat
  nframes : Nat
  out : Bytes
deriving DecidableEq, Repr

/-- DONE set and BUSY cleared: every completion (10_state.md R43). -/
def State.finish (s : State) : State := { s with done := true, busy := false }

/-- The block's trap entry, `fail E(k)` inside COMPLETE (60_exceptions.md R243): ERR names the failure, the results are
cleared, OUT_BUF is unspecified in a new draw (log 7). -/
def State.completeFail (e : Failure) (s : State) : State :=
  State.finish
    { s with
      errCode := e.kind.code
      errFrame := e.errFrame
      resCid := 0
      resLen := 0
      resNframes := 0
      outBuf := Memory.unspecified s.draws
      draws := s.draws + 1 }

/-- A successful completion (60_exceptions.md R244). -/
def State.completeOk (r : Success) (s : State) : State :=
  State.finish
    { s with
      errCode := 0
      errFrame := 0
      resCid := r.cid
      resLen := BitVec.ofNat 32 r.len
      resNframes := BitVec.ofNat 32 r.nframes
      outBuf := s.outBuf.writeBytes 0 r.out }

/-- COMPLETE with a command's outcome (10_state.md R43). -/
def State.complete (s : State) : Except Failure Success → State
  | .error e => s.completeFail e
  | .ok r => s.completeOk r

/-! Host control. -/

/-- Acceptance of a command word while BUSY = 0 (43_host_control.md R220); also one of the two ways a host returns from
a completion (60_exceptions.md R249). -/
def State.accept (w : Word) (s : State) : State := { s with latch := w, busy := true, done := false }

/-- A host write dropped while BUSY = 1 (43_host_control.md R224). -/
def State.dropWrite (s : State) : State := { s with werr := true }

/-- DONE cleared: the host's return from a completion (43_host_control.md R226, 60_exceptions.md R249). -/
def State.clearDone (s : State) : State := { s with done := false }

/-- WERR cleared (43_host_control.md R226). -/
def State.clearWerr (s : State) : State := { s with werr := false }

/-- Soft reset (70_reset_and_hazards.md R272, 10_state.md R45): the registers, nothing of DESC and IN_BUF, and OUT_BUF
only if a command was in flight. The latch takes a free value (log 6). -/
def State.softReset (s : State) : State :=
  { s with
    ie := false
    busy := false
    done := false
    werr := false
    errCode := 0
    errFrame := 0
    asmNframes := 0
    fragMtu := 0
    startSeq := 0
    startAck := 0
    pktSize := 0
    resCid := 0
    resLen := 0
    resNframes := 0
    latch := Config.freeWord s.draws
    outBuf := if s.busy then Memory.unspecified s.draws else s.outBuf
    draws := s.draws + 1 }

/-- Hard reset while the machine runs, the reset input left at a level: the same for its assertion and for its release
(70_reset_and_hazards.md R270): the state after reset, its memories in new draws (log 24); the host's pending operations, the
order of moves and the replies are outside the block and stay. -/
def State.hardReset (asserted : Bool) (s : State) : State :=
  { State.reset with
    resetHeld := asserted
    desc := Memory.unspecified s.draws
    inBuf := Memory.unspecified (s.draws + 1)
    outBuf := Memory.unspecified (s.draws + 2)
    draws := s.draws + 3
    inbox := s.inbox
    sched := s.sched
    replies := s.replies }

end Sys2Proof.Machine
end

