-- ==== Sys2Proof/Machine/Assemble.lean ====
section
/-! DEFINITION. ASSEMBLE, the packet reassembler with sequence checker (41_assemble.md R160 to R172). -/

namespace Sys2Proof.Machine

/-- What ASSEMBLE carries from frame to frame, local to one COMPLETE step (00_scope.md R14, 10_state.md R44). -/
structure AsmLocals where
  /-- expected_cid. -/
  cid : Half
  /-- prev_seq. -/
  prevSeq : Byte
  /-- total. -/
  total : Half
  /-- acc. -/
  acc : Bytes
deriving DecidableEq, Repr

/-- The locals before frame 0; acc is empty and frame 0 sets every other field before it is read
(41_assemble.md R160). -/
def AsmLocals.start : AsmLocals := ⟨0, 0, 0, []⟩

/-- Frame k is the first of a multi-frame set, so of format S (30_encoding.md R102). -/
def isFirst (nf k : Nat) : Bool := k == 0 && decide (1 < nf)

/-- Frame k is the last of a multi-frame set. -/
def isLast (nf k : Nat) : Bool := k + 1 == nf && decide (1 < nf)

/-- Frame k of nf is refused by the segmentation checks (41_assemble.md R168). -/
def badSegmentation (p : Config.Params) (nf k : Nat) (ctrl : Half) : Bool :=
  (isFirst nf k && !isStart p ctrl) ||
  (decide (1 < nf) && decide (0 < k) && decide (k + 1 < nf) && isStart p ctrl) ||
  (isLast nf k && !isEnd p ctrl)

/-- The first check that frame k of nf fails, in the order of 41_assemble.md R172: minimum length (R163), length prefix
(R164), checksum (R165), channel (R166), sequence (R167), segmentation (R168). -/
def frameError (p : Config.Params) (nf k : Nat) (l : AsmLocals) (f : Bytes) : Option ErrKind :=
  if f.length < minFrameSize (isFirst nf k) then some .lengthMismatch
  else if (lengthPrefix f).toNat ≠ f.length - 4 then some .lengthMismatch
  else if checksumOk p f = false then some .checksumMismatch
  else if channelId f ≠ (if k = 0 then channelId f else l.cid) then some .channelMismatch
  else if 0 < k ∧ (seqByte f).toNat ≠ (l.prevSeq.toNat + 2) % 64 then some .sequenceMismatch
  else if badSegmentation p nf k (controls f) then some .badSegmentation
  else none

/-- The locals after frame k passed its checks (41_assemble.md R166, R167, R169). -/
def AsmLocals.push (nf k : Nat) (l : AsmLocals) (f : Bytes) : AsmLocals where
  cid := if k = 0 then channelId f else l.cid
  prevSeq := seqByte f
  total := if isFirst nf k then totalLength f else l.total
  acc := l.acc ++ payload f (isFirst nf k)

/-- The per-frame loop: m frames still to do, the next of index k (41_assemble.md R160 step 4). -/
def assembleLoop (p : Config.Params) (nf : Nat) (fetch : Nat → Except Failure Bytes) :
    Nat → Nat → AsmLocals → Except Failure AsmLocals
  | 0, _, l => .ok l
  | m + 1, k, l =>
    match fetch k with
    | .error e => .error e
    | .ok f =>
      match frameError p nf k l f with
      | some kind => .error ⟨kind, some k⟩
      | none => assembleLoop p nf fetch m (k + 1) (l.push nf k f)

/-- The checks on the frame list before the loop (41_assemble.md R161). -/
def listError (p : Config.Params) (nf : Nat) (fetch : Nat → Except Failure Bytes) : Option Failure :=
  if nf = 0 then some ⟨.empty, none⟩
  else if nf > p.maxFrames then some ⟨.capacity, none⟩
  else if nf = 1 then
    match fetch 0 with
    | .error e => some e
    | .ok f0 =>
      if f0.length < 6 then some ⟨.lengthMismatch, some 0⟩
      else if isUnsegmented p (controls f0) = false then some ⟨.badSegmentation, some 0⟩
      else none
  else none

/-- The end of ASSEMBLE after every frame passed: the total-length check (41_assemble.md R170) and the packet
(R171). -/
def assembleEnd (nf : Nat) (l : AsmLocals) : Except Failure Success :=
  if 1 < nf ∧ l.acc.length ≠ l.total.toNat then .error ⟨.totalLengthMismatch, none⟩
  else .ok ⟨l.cid, l.acc.length, nf, packetBuffer l.cid l.acc⟩

/-- ASSEMBLE of nf frames given how frame k is fetched (41_assemble.md R160). -/
def assembleList (p : Config.Params) (nf : Nat) (fetch : Nat → Except Failure Bytes) : Except Failure Success :=
  match listError p nf fetch with
  | some e => .error e
  | none =>
    match assembleLoop p nf fetch nf 0 AsmLocals.start with
    | .error e => .error e
    | .ok l => assembleEnd nf l

/-- ASSEMBLE on the registers, DESC and IN_BUF (41_assemble.md R160). -/
def State.assembleOutcome (p : Config.Params) (s : State) : Except Failure Success :=
  assembleList p s.asmNframes.toNat (s.fetch p)

/-- ASSEMBLE (41_assemble.md R160): its COMPLETE step. -/
def execAssemble (s : State) : Host.Outcome State Fault Refusal :=
  .next (s.complete (s.assembleOutcome block))

end Sys2Proof.Machine
end

