-- ==== Sys2Proof/Machine/Control.lean ====
section
/-! DEFINITION. INVALID (43_host_control.md R222) and the register-write actions on CTRL and STATUS (R225, R226), with
the write filter of R224. -/

namespace Sys2Proof.Machine

/-- INVALID (43_host_control.md R222): its COMPLETE step fails with InvalidCommand; the word's fields decide nothing. -/
def execInvalid (_rsv : BitVec 28) (_opc : BitVec 4) (s : State) : Host.Outcome State Fault Refusal :=
  .next (s.completeFail ⟨.invalidCommand, none⟩)

/-- SOFT_RESET (43_host_control.md R225, 70_reset_and_hazards.md R272), allowed while BUSY = 1. -/
def execSoftReset (s : State) : Host.Outcome State Fault Refusal := .next s.softReset

/-- SET_IE (43_host_control.md R225), allowed while BUSY = 1. -/
def execSetIe (ie : Bool) (s : State) : Host.Outcome State Fault Refusal := .next { s with ie := ie }

/-- CLR_DONE (43_host_control.md R226); while BUSY = 1 the write is dropped (R224). -/
def execClrDone (s : State) : Host.Outcome State Fault Refusal :=
  .next (if s.busy then s.dropWrite else s.clearDone)

/-- CLR_WERR (43_host_control.md R226); while BUSY = 1 the write is dropped (R224). -/
def execClrWerr (s : State) : Host.Outcome State Fault Refusal :=
  .next (if s.busy then s.dropWrite else s.clearWerr)

end Sys2Proof.Machine
end

