-- ==== Sys2Proof/Machine/Fragment.lean ====
section
/-! DEFINITION. FRAGMENT, the frame fragmenter with length prefixer (42_fragment.md R190 to R200). -/

namespace Sys2Proof.Machine

/-- The greedy split of a payload (42_fragment.md R198): payload bytes of frame 0, of each later frame but the last, the
frame count, and payload bytes of the last frame. -/
structure Split where
  c1 : Nat
  c : Nat
  n : Nat
  r : Nat
deriving DecidableEq, Repr

/-- The split of len payload bytes for MTU m, where len > m - 8 and m ≥ 11 (42_fragment.md R198). -/
def splitOf (len m : Nat) : Split :=
  let c1 := m - 10
  let c := m - 8
  let n := 1 + (len - c1 + c - 1) / c
  ⟨c1, c, n, len - c1 - (n - 2) * c⟩

/-- The total output size (n - 1) * M + r + 8 (42_fragment.md R199). -/
def Split.totalSize (sp : Split) (m : Nat) : Nat := (sp.n - 1) * m + sp.r + 8

/-- What every frame of one FRAGMENT shares: the channel id, START_SEQ and START_ACK. -/
structure FragArgs where
  cid : Half
  seq : Byte
  ack : Byte
deriving DecidableEq, Repr

/-- START_ACK[5:0], the ack field of every frame with payload (42_fragment.md R195, R197). -/
def FragArgs.ackLow (a : FragArgs) : BitVec 6 := a.ack.extractLsb' 0 6

/-- The sequence byte of frame i of a multi-frame set (42_fragment.md R196). -/
def FragArgs.seqOf (a : FragArgs) (i : Nat) : Byte := BitVec.ofNat 8 ((a.seq.toNat + 2 * i) % 64)

/-- SAR code of frame i of n (42_fragment.md R197). -/
def sarOf (n i : Nat) : BitVec 2 :=
  if i = 0 then sarStart else if i + 1 = n then sarEnd else sarContinuation

/-- Payload bytes of frame i (42_fragment.md R198). -/
def Split.take (sp : Split) (i : Nat) : Nat :=
  if i = 0 then sp.c1 else if i + 1 = sp.n then sp.r else sp.c

/-- Frame i of the set: its payload starts at pos (42_fragment.md R190 step 5). -/
def setFrame (p : Config.Params) (a : FragArgs) (sp : Split) (pay : Bytes) (i pos : Nat) : Bytes :=
  build p a.cid (a.seqOf i) (sarByte (sarOf sp.n i) a.ackLow)
    (if i = 0 then some (BitVec.ofNat 16 pay.length) else none) (slice pay pos (pos + sp.take i))

/-- The per-frame loop: m frames still to do, the next of index i at payload position pos (42_fragment.md R190
step 5). -/
def fragmentLoop (p : Config.Params) (a : FragArgs) (sp : Split) (pay : Bytes) : Nat → Nat → Nat → List Bytes
  | 0, _, _ => []
  | m + 1, i, pos => setFrame p a sp pay i pos :: fragmentLoop p a sp pay m (i + 1) (pos + sp.take i)

/-- The frames of a payload for MTU m (42_fragment.md R190 steps 2 to 5, R193 to R199). -/
def fragmentFrames (p : Config.Params) (a : FragArgs) (pay : Bytes) (m : Nat) : Except Failure (List Bytes) :=
  if m < 8 then .error ⟨.malformed, none⟩
  else if pay.length = 0 then
    .ok [build p a.cid a.seq (sarByte sarUnsegmented (p.emptyAck a.ack)) none []]
  else if pay.length ≤ m - 8 then
    .ok [build p a.cid a.seq (sarByte sarUnsegmented a.ackLow) none pay]
  else if m < 11 then .error ⟨.malformed, none⟩
  else if (splitOf pay.length m).totalSize m > p.outBufSize then .error ⟨.capacity, none⟩
  else .ok (fragmentLoop p a (splitOf pay.length m) pay (splitOf pay.length m).n 0 0)

/-- FRAGMENT of a packet buffer (42_fragment.md R190; the checks of R191 on its bytes). -/
def fragmentPacket (p : Config.Params) (pk : Bytes) (m : Nat) (seq ack : Byte) : Except Failure Success :=
  if pk.length < 4 then .error ⟨.malformed, none⟩
  else if (recordedLength pk).toNat ≠ pk.length - 4 then .error ⟨.malformed, none⟩
  else
    match fragmentFrames p ⟨packetCid pk, seq, ack⟩ (pk.drop 4) m with
    | .error e => .error e
    | .ok frames => .ok ⟨packetCid pk, frames.flatten.length, frames.length, frames.flatten⟩

/-- FRAGMENT on the registers and IN_BUF (42_fragment.md R190; PKT_SIZE against IN_BUF_SIZE, R191). -/
def State.fragmentOutcome (p : Config.Params) (s : State) : Except Failure Success :=
  if s.pktSize.toNat > p.inBufSize then .error ⟨.capacity, none⟩
  else fragmentPacket p (s.inBuf.readBytes 0 s.pktSize.toNat) s.fragMtu.toNat s.startSeq s.startAck

/-- FRAGMENT (42_fragment.md R190): its COMPLETE step. -/
def execFragment (s : State) : Host.Outcome State Fault Refusal :=
  .next (s.complete (s.fragmentOutcome block))

end Sys2Proof.Machine
end

