-- ==== Sys2Proof/Machine/Dispatch.lean ====
section
/-! DEFINITION. One arm per instruction. A command's meaning is its COMPLETE step (10_state.md R43); a register-write
action's meaning is its effect in the access (30_encoding.md R93). -/

namespace Sys2Proof.Machine

/-- The meaning of every instruction (43_host_control.md R221, 30_encoding.md R93). -/
def exec (i : Instr) (s : State) : Host.Outcome State Fault Refusal :=
  match i with
  | .assemble => Sys2Proof.Machine.execAssemble s
  | .fragment => Sys2Proof.Machine.execFragment s
  | .invalid rsv opc => Sys2Proof.Machine.execInvalid rsv opc s
  | .softReset => Sys2Proof.Machine.execSoftReset s
  | .setIe ie => Sys2Proof.Machine.execSetIe ie s
  | .clrDone => Sys2Proof.Machine.execClrDone s
  | .clrWerr => Sys2Proof.Machine.execClrWerr s

end Sys2Proof.Machine
end

