-- ==== Sys2Proof/Machine/Bus.lean ====
section
/-! DEFINITION. The host port: the block window, reads, writes and the write filter (10_state.md R23 to R37,
20_memory.md R60 to R71, 43_host_control.md R220 to R227), and one move of the host or the engine. -/

namespace Sys2Proof.Machine

/-- The registers of 10_state.md R23. -/
inductive Reg where
  | id
  | ctrl
  | status
  | cmd
  | err
  | asmNframes
  | fragMtu
  | fragSeqack
  | pktSize
  | resCid
  | resLen
  | resNframes
  | capFrames
  | capInbuf
  | capOutbuf
deriving DecidableEq, Repr

/-- The register at an offset; none for the reserved offsets (10_state.md R23, R37). -/
def Reg.ofOffset : Nat → Option Reg
  | 0x00 => some .id
  | 0x04 => some .ctrl
  | 0x08 => some .status
  | 0x0C => some .cmd
  | 0x10 => some .err
  | 0x14 => some .asmNframes
  | 0x18 => some .fragMtu
  | 0x1C => some .fragSeqack
  | 0x20 => some .pktSize
  | 0x24 => some .resCid
  | 0x28 => some .resLen
  | 0x2C => some .resNframes
  | 0x30 => some .capFrames
  | 0x34 => some .capInbuf
  | 0x38 => some .capOutbuf
  | _ => none

/-- What a block address names: a register, a word of DESC, IN_BUF or OUT_BUF at a byte offset, or nothing (RAZ/WI). -/
inductive Loc where
  | reg (r : Reg)
  | desc (a : Nat)
  | inBuf (a : Nat)
  | outBuf (a : Nat)
  | reserved
deriving DecidableEq, Repr

/-- The block window map (20_memory.md R61), of the word that holds the address (R63). -/
def locate (p : Config.Params) (addr : Addr) : Loc :=
  let a := wordAddr addr
  if a < 0x100 then
    match Reg.ofOffset a with
    | some r => .reg r
    | none => .reserved
  else if 0x010000 ≤ a ∧ a < 0x010000 + descBytes p then .desc (a - 0x010000)
  else if 0x100000 ≤ a ∧ a < 0x100000 + p.inBufSize then .inBuf (a - 0x100000)
  else if 0x200000 ≤ a ∧ a < 0x200000 + p.outBufSize then .outBuf (a - 0x200000)
  else .reserved

/-- The value a register reads (10_state.md R24 to R36). -/
def State.regRead (s : State) : Reg → Word
  | .id => 0x53415201
  | .ctrl => s.ctrlWord
  | .status => s.statusWord
  | .cmd => 0
  | .err => s.errWord
  | .asmNframes => s.asmNframes.setWidth 32
  | .fragMtu => s.fragMtu.setWidth 32
  | .fragSeqack => s.seqackWord
  | .pktSize => s.pktSize
  | .resCid => s.resCid.setWidth 32
  | .resLen => s.resLen
  | .resNframes => s.resNframes
  | .capFrames => BitVec.ofNat 32 block.maxFrames
  | .capInbuf => BitVec.ofNat 32 block.inBufSize
  | .capOutbuf => BitVec.ofNat 32 block.outBufSize

/-- Lane i of a read of unspecified bytes: free inside the buffer, 0 above it (20_memory.md R62, R71; log 8). -/
def freeLane (size d a i : Nat) : Byte := if a + i < size then Config.freeByte d (a + i) else 0

/-- A read of the word at address a of a buffer whose bytes are unspecified: a draw for this read alone
(20_memory.md R71, 70_reset_and_hazards.md R270; log 8, log 24). -/
def State.freeRead (size a : Nat) (s : State) : Word × State :=
  (wordOfLanes (freeLane size s.draws a 0) (freeLane size s.draws a 1) (freeLane size s.draws a 2)
    (freeLane size s.draws a 3), { s with draws := s.draws + 1 })

/-- A host read: the data word, and the state after it, where only the model's draw number can have moved
(43_host_control.md R227, 20_memory.md R69, R71). While the reset input is asserted the registers read their reset values,
which they hold, and the buffers are unspecified (70_reset_and_hazards.md R270). -/
def hostRead (addr : Addr) (s : State) : Word × State :=
  match locate block addr with
  | .reg r => (s.regRead r, s)
  | .desc a =>
    if s.resetHeld then s.freeRead (descBytes block) a else (s.desc.readWord (descBytes block) a, s)
  | .inBuf a =>
    if s.resetHeld then s.freeRead block.inBufSize a else (s.inBuf.readWord block.inBufSize a, s)
  | .outBuf a =>
    if s.resetHeld ∨ s.busy then s.freeRead block.outBufSize a else (s.outBuf.readWord block.outBufSize a, s)
  | .reserved => (0, s)

/-- The instructions of one register write, in order; a STATUS write may be two (30_encoding.md R93). -/
def runAll : List Instr → State → Host.Outcome State Fault Refusal
  | [], s => .next s
  | i :: is, s =>
    match exec i s with
    | .next t => runAll is t
    | .fault r => .fault r
    | .refused r => .refused r

/-- A register write while BUSY = 0, and a CTRL write at any time (43_host_control.md R223, R225; strobes
20_memory.md R66: CMD's and STATUS's disabled lanes are 0, every other register's keep its value). -/
def regWrite (r : Reg) (w : Word) (strb : BitVec 4) (s : State) : Host.Outcome State Fault Refusal :=
  match r with
  | .ctrl => runAll (decode ⟨.ctrl, mergeLanes (s.regRead .ctrl) w strb⟩) s
  | .status => runAll (decode ⟨.status, mergeLanes 0 w strb⟩) s
  | .cmd => .next (s.accept (mergeLanes 0 w strb))
  | .asmNframes => .next { s with asmNframes := (mergeLanes (s.regRead .asmNframes) w strb).setWidth 16 }
  | .fragMtu => .next { s with fragMtu := (mergeLanes (s.regRead .fragMtu) w strb).setWidth 16 }
  | .fragSeqack =>
    .next
      { s with
        startSeq := lane (mergeLanes (s.regRead .fragSeqack) w strb) 0
        startAck := lane (mergeLanes (s.regRead .fragSeqack) w strb) 1 }
  | .pktSize => .next { s with pktSize := mergeLanes (s.regRead .pktSize) w strb }
  | .id => .next s
  | .err => .next s
  | .resCid => .next s
  | .resLen => .next s
  | .resNframes => .next s
  | .capFrames => .next s
  | .capInbuf => .next s
  | .capOutbuf => .next s

/-- A host write to a location that the filter lets through (43_host_control.md R223, 20_memory.md R62 to R64). -/
def locWrite (l : Loc) (w : Word) (strb : BitVec 4) (s : State) : Host.Outcome State Fault Refusal :=
  match l with
  | .reg r => regWrite r w strb s
  | .desc a => .next { s with desc := s.desc.writeWord (descBytes block) a w strb }
  | .inBuf a => .next { s with inBuf := s.inBuf.writeWord block.inBufSize a w strb }
  | .outBuf a => .next { s with outBuf := s.outBuf.writeWord block.outBufSize a w strb }
  | .reserved => .next s

/-- A write to this location is dropped with WERR while BUSY = 1: all but CTRL and the reserved addresses
(43_host_control.md R224, 10_state.md R37). -/
def Loc.filtered : Loc → Bool
  | .reg .ctrl => false
  | .reserved => false
  | _ => true

/-- A host write (43_host_control.md R220 to R226). While the reset input is asserted it leaves every register at its reset
value, and so does nothing (70_reset_and_hazards.md R270; log 15). -/
def hostWrite (addr : Addr) (w : Word) (strb : BitVec 4) (s : State) : Host.Outcome State Fault Refusal :=
  let l := locate block addr
  if s.resetHeld then .next s
  else if s.busy ∧ l.filtered then .next s.dropWrite else locWrite l w strb s

/-- A reply the host receives (log 13). -/
def State.reply (w : Word) (s : State) : State := { s with replies := w :: s.replies }

/-- One host operation (30_encoding.md R107). A POLL whose masked data differs stays at the head of the host's list: the
host repeats its read. -/
def hostOp (op : HostOp) (s : State) : Host.Outcome State Fault Refusal :=
  match op with
  | .rd a => .next ((hostRead a s).2.reply (hostRead a s).1)
  | .wr a w strb => hostWrite a w strb s
  | .poll a mask v =>
    let t := (hostRead a s).2.reply (hostRead a s).1
    .next (if (hostRead a s).1 &&& mask = v then t else { t with inbox := .poll a mask v :: t.inbox })

/-- The host's move: the block receives its next operation, if there is one (20_memory.md R73; log 2). -/
def hostTurn (s : State) : Host.Outcome State Fault Refusal :=
  match s.inbox with
  | [] => .next s
  | op :: rest => hostOp op { s with inbox := rest }

/-- The reset input's move to a level (70_reset_and_hazards.md R270); releasing a released input does nothing. -/
def resetTurn (asserted : Bool) (s : State) : Host.Outcome State Fault Refusal :=
  .next (if asserted ∨ s.resetHeld then s.hardReset asserted else s)

/-- The engine's move: COMPLETE runs the decoded latch exactly when BUSY = 1 (10_state.md R43, 43_host_control.md
R221). -/
def engineTurn (s : State) : Host.Outcome State Fault Refusal :=
  if s.busy then exec (decodeCommand s.latch) s else .next s

end Sys2Proof.Machine
end

