-- ==== Sys2Proof/Machine/HostProgram.lean ====
section
/-! DEFINITION. The expansions of the host's pseudo-instructions (30_encoding.md R107, R108). -/

namespace Sys2Proof.Machine

/-- WR a, v: a write with all four strobes (30_encoding.md R107). -/
def wrAll (a : Addr) (v : Word) : HostOp := .wr a v 0xF

/-- The words of a LOAD: four bytes a word, the last one's missing bytes 0 under 0 strobes (30_encoding.md R108). DESIGN
CHOICE (log 23): a word's address that passes the end of the 22-bit window, 0x3FFFFF, wraps modulo 2^22. -/
def loadOps : Addr → Bytes → List HostOp
  | _, [] => []
  | a, [b0] => [.wr a (wordOfLanes b0 0 0 0) 0x1]
  | a, [b0, b1] => [.wr a (wordOfLanes b0 b1 0 0) 0x3]
  | a, [b0, b1, b2] => [.wr a (wordOfLanes b0 b1 b2 0) 0x7]
  | a, b0 :: b1 :: b2 :: b3 :: rest => .wr a (wordOfLanes b0 b1 b2 b3) 0xF :: loadOps (a + 4) rest

/-- The bus operations of a pseudo-instruction (30_encoding.md R108). DESIGN CHOICE (log 23): an address of a DESC or a LOAD
that passes the end of the 22-bit window, 0x3FFFFF, wraps modulo 2^22. -/
def expandPseudo : Pseudo → List HostOp
  | .op o => [o]
  | .assemble f => [wrAll 0x14 f, wrAll 0x0C 0x00000001]
  | .fragment m seq ack size =>
    [wrAll 0x18 m, wrAll 0x1C (seq ||| (ack <<< 8)), wrAll 0x20 size, wrAll 0x0C 0x00000002]
  | .waitDone => [.poll 0x08 0x2 0x2]
  | .clrDone => [wrAll 0x08 0x2]
  | .clrWerr => [wrAll 0x08 0x4]
  | .sReset => [wrAll 0x04 0x2]
  | .irqOn => [wrAll 0x04 0x1]
  | .desc k off len => [wrAll (BitVec.ofNat 22 (0x010000 + 8 * k)) off, wrAll (BitVec.ofNat 22 (0x010004 + 8 * k)) len]
  | .load base bytes => loadOps base bytes

/-- A host program handed to the block's port: its operations wait behind those already pending (log 2). -/
def State.withProgram (s : State) (prog : List Pseudo) : State :=
  { s with inbox := s.inbox ++ (prog.map expandPseudo).flatten }

end Sys2Proof.Machine
end

