-- ==== Sys2Proof/Machine/Step.lean ====
section
/-! DEFINITION. One step of the whole machine: the next move of the order in State.sched, or, that order used up, the
engine when it is enabled and else the host (10_state.md R43, 60_exceptions.md R247; log 3). -/

namespace Sys2Proof.Machine

/-- One step. -/
def step (s : State) : Host.Outcome State Fault Refusal :=
  match s.sched with
  | [] => if s.busy then engineTurn s else hostTurn s
  | .engine :: rest => engineTurn { s with sched := rest }
  | .host :: rest => hostTurn { s with sched := rest }
  | .reset asserted :: rest => resetTurn asserted { s with sched := rest }

/-- s with the command word w accepted (43_host_control.md R220) and the engine's move next, so that the very next step
decodes and runs it (log 2). -/
def State.withFetchWord (s : State) (nbits w : Nat) : State :=
  { s.accept (BitVec.ofNat 32 (w % 2 ^ nbits)) with sched := .engine :: s.sched }

end Sys2Proof.Machine
end

