-- ==== Sys2Proof/Safety.lean ====
section
/-! DEFINITION. What the statements speak of: what a step leaves unchanged, the two ends of a command, when ASSEMBLE's
frames pass, and the invariant of the machine. -/

namespace Sys2Proof.Machine

/-! What stays unchanged. -/

/-- The parameter registers keep their values. -/
def SameParams (s t : State) : Prop :=
  t.asmNframes = s.asmNframes ∧ t.fragMtu = s.fragMtu ∧ t.startSeq = s.startSeq ∧ t.startAck = s.startAck ∧
  t.pktSize = s.pktSize

/-- Every byte of DESC and of IN_BUF reads as before. -/
def SameInBuffers (s t : State) : Prop :=
  (∀ a, t.desc.read a = s.desc.read a) ∧ (∀ a, t.inBuf.read a = s.inBuf.read a)

/-- Every byte of OUT_BUF reads as before. -/
def SameOutBuf (s t : State) : Prop := ∀ a, t.outBuf.read a = s.outBuf.read a

/-- ERR and the result registers keep their values. -/
def SameResults (s t : State) : Prop :=
  t.errCode = s.errCode ∧ t.errFrame = s.errFrame ∧ t.resCid = s.resCid ∧ t.resLen = s.resLen ∧
  t.resNframes = s.resNframes

/-- What stands outside the block: the level of the reset input, pending host operations, order of moves, replies. -/
def SameHost (s t : State) : Prop :=
  t.resetHeld = s.resetHeld ∧ t.inbox = s.inbox ∧ t.sched = s.sched ∧ t.replies = s.replies

/-- What no command changes (60_exceptions.md R243, R244): the parameter registers, DESC, IN_BUF, CTRL, STATUS.WERR,
the latch, and the model's own lists. -/
def CommandFrame (s t : State) : Prop :=
  SameParams s t ∧ SameInBuffers s t ∧ t.ie = s.ie ∧ t.werr = s.werr ∧ t.latch = s.latch ∧ SameHost s t

/-- Everything but the four flags IE, BUSY, DONE, WERR. -/
def SameButFlags (s t : State) : Prop :=
  SameParams s t ∧ SameInBuffers s t ∧ SameOutBuf s t ∧ SameResults s t ∧ t.latch = s.latch ∧ t.draws = s.draws ∧
  SameHost s t

/-! Moves. -/

/-- The next move is the host's, with this operation; s' is s with the move and the operation taken off. -/
def HostMoves (op : HostOp) (s s' : State) : Prop :=
  ∃ turns ops, (s.sched = .host :: turns ∨ (s.sched = [] ∧ turns = [] ∧ s.busy = false)) ∧ s.inbox = op :: ops ∧
    s' = { s with sched := turns, inbox := ops }

/-- The block receives this host operation in the next move, the reset input being released. -/
def Arrives (op : HostOp) (s s' : State) : Prop := HostMoves op s s' ∧ s.resetHeld = false

/-- The next move is the engine's; s' is s with the move taken off. -/
def EngineMoves (s s' : State) : Prop :=
  ∃ turns, (s.sched = .engine :: turns ∨ (s.sched = [] ∧ turns = [] ∧ s.busy = true)) ∧ s' = { s with sched := turns }

/-- The reserved addresses and the RAZ/WI parts of the windows, for a word address (20_memory.md R61, 10_state.md
R37). -/
def ReservedWord (a : Nat) : Prop :=
  (0x3C ≤ a ∧ a < 0x010000) ∨ (0x012000 ≤ a ∧ a < 0x100000) ∨ (0x120000 ≤ a ∧ a < 0x200000) ∨ 0x240000 ≤ a

/-! The two ends of a command. -/

/-- t is s after a command failed with e (60_exceptions.md R243): ERR_CODE is the number R240's table gives the kind, ERR_FRAME
the frame's index or 0xFFFF (R242), OUT_BUF holds free values of a new draw. -/
def FailedWith (e : Failure) (s t : State) : Prop :=
  t.errCode.toNat = (match e.kind with
    | .empty => 1 | .lengthMismatch => 2 | .checksumMismatch => 3 | .channelMismatch => 4 | .sequenceMismatch => 5
    | .badSegmentation => 6 | .totalLengthMismatch => 7 | .malformed => 8 | .invalidCommand => 9 | .capacity => 10) ∧
  (e.frame = none → t.errFrame.toNat = 0xFFFF) ∧ (∀ k, e.frame = some k → k ≤ 0xFFFF → t.errFrame.toNat = k) ∧
  t.resCid = 0 ∧ t.resLen = 0 ∧ t.resNframes = 0 ∧
  (∀ a, t.outBuf.read a = Config.freeByte s.draws a) ∧ t.draws = s.draws + 1 ∧
  t.done = true ∧ t.busy = false ∧ CommandFrame s t

/-- t is s after a command succeeded with these results (60_exceptions.md R244): OUT_BUF holds the output from byte 0 up,
and every other byte as before. -/
def SucceededWith (cid : Half) (len nframes : Nat) (out : Bytes) (s t : State) : Prop :=
  t.errCode = 0 ∧ t.errFrame = 0 ∧ t.resCid = cid ∧ t.resLen = BitVec.ofNat 32 len ∧
  t.resNframes = BitVec.ofNat 32 nframes ∧
  (∀ i, (h : i < out.length) → t.outBuf.read i = out[i]) ∧
  (∀ a, out.length ≤ a → t.outBuf.read a = s.outBuf.read a) ∧ t.draws = s.draws ∧
  t.done = true ∧ t.busy = false ∧ CommandFrame s t

/-- Every register holds its reset value (10_state.md R45); the constants and CMD hold nothing. -/
def RegistersReset (t : State) : Prop :=
  t.ie = false ∧ t.busy = false ∧ t.done = false ∧ t.werr = false ∧
  t.errCode = 0 ∧ t.errFrame = 0 ∧ t.resCid = 0 ∧ t.resLen = 0 ∧ t.resNframes = 0 ∧
  t.asmNframes = 0 ∧ t.fragMtu = 0 ∧ t.startSeq = 0 ∧ t.startAck = 0 ∧ t.pktSize = 0

/-- t is s after a soft reset (70_reset_and_hazards.md R272, 10_state.md R45): the registers at their reset values, DESC and
IN_BUF kept, OUT_BUF kept unless a command was in flight, the latch and a lost OUT_BUF free values of a new draw. -/
def SoftResetOf (s t : State) : Prop :=
  RegistersReset t ∧ t.latch = Config.freeWord s.draws ∧ SameInBuffers s t ∧
  (s.busy = false → SameOutBuf s t) ∧ (s.busy = true → ∀ a, t.outBuf.read a = Config.freeByte s.draws a) ∧
  t.draws = s.draws + 1 ∧ SameHost s t

/-! ASSEMBLE's inputs and checks, frame by frame. -/

/-- Descriptor k lies inside IN_BUF (40_frame.md R131). -/
def State.frameInside (s : State) (k : Nat) : Prop :=
  (s.descRead block k).1 + (s.descRead block k).2 ≤ block.inBufSize

/-- The bytes descriptor k points at (40_frame.md R131). -/
def State.frameBytes (s : State) (k : Nat) : Bytes := s.inBuf.readBytes (s.descRead block k).1 (s.descRead block k).2

/-- Frame k of nf is long enough and its length prefix is N - 4 (41_assemble.md R163, R164). -/
def LengthOk (nf : Nat) (fr : Nat → Bytes) (k : Nat) : Prop :=
  (if k = 0 ∧ 1 < nf then 10 else 8) ≤ (fr k).length ∧ (le16 (fr k) 0).toNat + 4 = (fr k).length

/-- The last two bytes of frame k are the FCS of the bytes before them (41_assemble.md R165). -/
def ChecksumMatches (p : Config.Params) (fr : Nat → Bytes) (k : Nat) : Prop :=
  le16 (fr k) ((fr k).length - 2) = fcs p.fcsTable ((fr k).take ((fr k).length - 2))

/-- Frame k has frame 0's channel id (41_assemble.md R166). -/
def ChannelOk (fr : Nat → Bytes) (k : Nat) : Prop := le16 (fr k) 2 = le16 (fr 0) 2

/-- Frame k's sequence byte follows frame k-1's (41_assemble.md R167); frame 0's is free. -/
def SequenceOk (fr : Nat → Bytes) (k : Nat) : Prop :=
  0 < k → (byteAt (fr k) 4).toNat = ((byteAt (fr (k - 1)) 4).toNat + 2) % 64

/-- Frame k's SAR code suits its position (41_assemble.md R168): start first, not start inside, end last. -/
def SegmentationOk (p : Config.Params) (nf : Nat) (fr : Nat → Bytes) (k : Nat) : Prop :=
  1 < nf →
    (k = 0 → le16 (fr k) 4 &&& p.sarClassMask = 0x4000#16) ∧
    (0 < k → k + 1 < nf → le16 (fr k) 4 &&& p.sarClassMask ≠ 0x4000#16) ∧
    (k + 1 = nf → le16 (fr k) 4 &&& p.sarClassMask = 0x8000#16)

/-- Frame k of nf passes every check of the loop (41_assemble.md R160 step 4). -/
structure FramePasses (p : Config.Params) (nf : Nat) (fr : Nat → Bytes) (k : Nat) : Prop where
  length : LengthOk nf fr k
  checksum : ChecksumMatches p fr k
  channel : ChannelOk fr k
  sequence : SequenceOk fr k
  segmentation : SegmentationOk p nf fr k

/-- Frame k of nf fails this kind of check, having passed every check before it (41_assemble.md R172). -/
inductive FrameFails (p : Config.Params) (nf : Nat) (fr : Nat → Bytes) (k : Nat) : ErrKind → Prop where
  | length : ¬ LengthOk nf fr k → FrameFails p nf fr k .lengthMismatch
  | checksum : LengthOk nf fr k → ¬ ChecksumMatches p fr k → FrameFails p nf fr k .checksumMismatch
  | channel : LengthOk nf fr k → ChecksumMatches p fr k → ¬ ChannelOk fr k → FrameFails p nf fr k .channelMismatch
  | sequence : LengthOk nf fr k → ChecksumMatches p fr k → ChannelOk fr k → ¬ SequenceOk fr k →
      FrameFails p nf fr k .sequenceMismatch
  | segmentation : LengthOk nf fr k → ChecksumMatches p fr k → ChannelOk fr k → SequenceOk fr k →
      ¬ SegmentationOk p nf fr k → FrameFails p nf fr k .badSegmentation

/-- The step-2 check of a one-frame list (41_assemble.md R161): the frame holds a control word and is unsegmented. -/
def SingleFrameOk (p : Config.Params) (nf : Nat) (fr : Nat → Bytes) : Prop :=
  nf = 1 → 6 ≤ (fr 0).length ∧ le16 (fr 0) 4 &&& p.sarClassMask = 0x0000#16

/-- The payloads of frames 0 to n-1 of nf, one after another (41_assemble.md R169). -/
def gathered (nf : Nat) (fr : Nat → Bytes) : Nat → Bytes
  | 0 => []
  | n + 1 => gathered nf fr n ++ slice (fr n) (if n = 0 ∧ 1 < nf then 8 else 6) ((fr n).length - 2)

/-- ASSEMBLE's inputs pass every check of 41_assemble.md R160. -/
structure AssembleAccepts (s : State) : Prop where
  nonempty : s.asmNframes.toNat ≠ 0
  count : s.asmNframes.toNat ≤ 1024
  inside : ∀ k < s.asmNframes.toNat, s.frameInside k
  single : SingleFrameOk block s.asmNframes.toNat s.frameBytes
  passes : ∀ k < s.asmNframes.toNat, FramePasses block s.asmNframes.toNat s.frameBytes k
  total : 1 < s.asmNframes.toNat →
    (gathered s.asmNframes.toNat s.frameBytes s.asmNframes.toNat).length = (le16 (s.frameBytes 0) 6).toNat

/-! FRAGMENT's input. -/

/-- Byte string IN_BUF[0..PKT_SIZE), the packet buffer of FRAGMENT (42_fragment.md R190). -/
def State.packetBytes (s : State) : Bytes := s.inBuf.readBytes 0 s.pktSize.toNat

/-- The packet buffer is legal (42_fragment.md R191): it fits IN_BUF, holds its header, and records its payload size. -/
def State.packetLegal (s : State) : Prop :=
  s.pktSize.toNat ≤ 0x20000 ∧ 4 ≤ s.pktSize.toNat ∧ (le16 s.packetBytes 0).toNat = s.pktSize.toNat - 4

/-! The invariant. -/

/-- What every step keeps. -/
structure Inv (s : State) : Prop where
  /-- The memories are in canonical form and hold nothing outside their size (20_memory.md R70). -/
  desc_wf : s.desc.wf (descBytes block)
  inBuf_wf : s.inBuf.wf block.inBufSize
  outBuf_wf : s.outBuf.wf block.outBufSize
  /-- Every draw in use was taken, and no two memories share one. -/
  desc_draw : s.desc.draw < s.draws
  inBuf_draw : s.inBuf.draw < s.draws
  outBuf_draw : s.outBuf.draw < s.draws
  draws_differ : s.desc.draw ≠ s.inBuf.draw ∧ s.desc.draw ≠ s.outBuf.draw ∧ s.inBuf.draw ≠ s.outBuf.draw
  /-- While a command is in flight DONE is 0 (10_state.md R26, R38). -/
  busy_not_done : s.busy = true → s.done = false
  /-- While the reset input is asserted every register holds its reset value (70_reset_and_hazards.md R270). -/
  held_reset : s.resetHeld = true → RegistersReset s
  /-- Codes above 10 are never written (60_exceptions.md R240). -/
  code_le : s.errCode ≤ 10
  /-- The results are 0 after an error (10_state.md R33 to R35). -/
  error_clears : s.errCode ≠ 0 → s.resCid = 0 ∧ s.resLen = 0 ∧ s.resNframes = 0
  /-- ERR_FRAME is 0 on success, a frame index, or 0xFFFF (60_exceptions.md R242). -/
  frame_zero : s.errCode = 0 → s.errFrame = 0
  frame_range : s.errFrame.toNat < block.maxFrames ∨ s.errFrame = 0xFFFF
  /-- No output is longer than FRAGMENT's largest, 21846 frames and 240305 bytes (42_fragment.md R199). -/
  nframes_le : s.resNframes.toNat ≤ 21846
  len_le : s.resLen.toNat ≤ 240305

end Sys2Proof.Machine
end

