-- ==== Sys2Proof/Certificates/Slice0/Obligations.lean ====
section
/-! DEFINITION. The statements for the provers. Each docstring names the rule of spec/ it comes from; a clause that is the
model's own choice names its log entry. -/

open Sys2Proof Sys2Proof.Machine

/-! Encoding. -/

/-- 30_encoding.md R90 to R93: every well-formed instruction, with every value of its fields, decodes from the register
write that stands for it, alone. -/
def Obligations.EncodedInstructionDecodesBack : Prop :=
  ∀ i : Instr, i.wellFormed = true → decode (encode i) = [i]

/-- 30_encoding.md R90 to R92: a command word is never read as a neighbour: encoding what it decodes to gives the whole
word back, and what it decodes to is well formed. -/
def Obligations.CommandWordIsKeptWhole : Prop :=
  ∀ w : Word, encode (decodeCommand w) = ⟨.cmd, w⟩ ∧ (decodeCommand w).wellFormed = true

/-- 30_encoding.md R93: what a word written to CTRL or to STATUS stands for is decided by its bits 1, 0 and 2, and nothing
else of it. -/
def Obligations.CtrlAndStatusWordsDecodeByTheirBits : Prop :=
  ∀ w : Word,
    (decode ⟨.ctrl, w⟩ = [.softReset] ↔ w.getLsbD 1 = true) ∧
    (∀ ie, decode ⟨.ctrl, w⟩ = [.setIe ie] ↔ w.getLsbD 1 = false ∧ w.getLsbD 0 = ie) ∧
    (∀ i, i ∈ decode ⟨.status, w⟩ ↔ (i = .clrDone ∧ w.getLsbD 1 = true) ∨ (i = .clrWerr ∧ w.getLsbD 2 = true))

/-- 30_encoding.md R91 to R93, spec/opcode_table.json: a few words written out bit by bit decode to their instructions. -/
def Obligations.WrittenOutWordsDecode : Prop :=
  decode ⟨.cmd, 0b00000000000000000000000000000001#32⟩ = [.assemble] ∧
  decode ⟨.cmd, 0b00000000000000000000000000000010#32⟩ = [.fragment] ∧
  decode ⟨.cmd, 0b00000000000000000000000000010001#32⟩ = [.invalid 1#28 1#4] ∧
  decode ⟨.ctrl, 0b00000000000000000000000000000011#32⟩ = [.softReset] ∧
  decode ⟨.ctrl, 0b10000000000000000000000000000001#32⟩ = [.setIe true] ∧
  decode ⟨.status, 0b00000000000000000000000000000110#32⟩ = [.clrDone, .clrWerr]

/-! Steps. -/

/-- 10_state.md R43, 43_host_control.md R221: when the engine moves while BUSY = 1, the step runs the instruction the latch
decodes to, on the state with the move taken off; while BUSY = 0 the engine does nothing (log 3). -/
def Obligations.EngineMoveRunsTheDecodedLatch : Prop :=
  ∀ s s' : State, EngineMoves s s' →
    (s.busy = true → step s = exec (decodeCommand s.latch) s') ∧ (s.busy = false → step s = .next s')

/-- 43_host_control.md R220, R221: after withFetchWord the very next step runs the word's instruction on the state in which
that word was accepted (log 2). -/
def Obligations.FetchedWordRunsNext : Prop :=
  ∀ (s : State) (w : Word),
    step (s.withFetchWord 32 w.toNat) = exec (decodeCommand w) { s with latch := w, busy := true, done := false }

/-- 43_host_control.md R225: a CTRL write acts at any time, BUSY or not: a soft reset where written bit 1 is 1, else IE
takes written bit 0, and the IRQ output is then DONE and that bit (60_exceptions.md R250); a write whose lane 0 is disabled
changes nothing (20_memory.md R66). -/
def Obligations.CtrlWriteActsAtAnyTime : Prop :=
  ∀ (s s' : State) (a : Addr) (w : Word) (strb : BitVec 4),
    Arrives (.wr a w strb) s s' → wordAddr a = 0x04 →
      (strb.getLsbD 0 = true → w.getLsbD 1 = true → ∃ t, step s = .next t ∧ SoftResetOf s' t) ∧
      (strb.getLsbD 0 = true → w.getLsbD 1 = false → step s = .next { s' with ie := w.getLsbD 0 } ∧
        State.irq { s' with ie := w.getLsbD 0 } = (s.done && w.getLsbD 0)) ∧
      (strb.getLsbD 0 = false → step s = .next s')

/-- 43_host_control.md R226: a STATUS write while BUSY = 0 clears DONE where written bit 1 is 1 and WERR where written bit 2
is 1, in an enabled lane (20_memory.md R66), changes nothing else, and with DONE lowers the IRQ output. -/
def Obligations.StatusWriteClearsTheNamedFlags : Prop :=
  ∀ (s s' : State) (a : Addr) (w : Word) (strb : BitVec 4),
    Arrives (.wr a w strb) s s' → wordAddr a = 0x08 → s.busy = false →
      ∃ t, step s = .next t ∧
        (t.done = true ↔ s.done = true ∧ ¬ (strb.getLsbD 0 = true ∧ w.getLsbD 1 = true)) ∧
        (t.werr = true ↔ s.werr = true ∧ ¬ (strb.getLsbD 0 = true ∧ w.getLsbD 2 = true)) ∧
        t.ie = s.ie ∧ t.busy = false ∧ SameButFlags s' t ∧
        (strb.getLsbD 0 = true → w.getLsbD 1 = true → t.irq = false)

/-- 43_host_control.md R220, 20_memory.md R66: a write to CMD while BUSY = 0 is accepted whatever its word: the latch takes
the enabled lanes and 0 in the others, BUSY is set, DONE and so the IRQ output are cleared, the results stay; while BUSY = 1
it is dropped with WERR. A write whose four strobes are 0 counts as a write (log 17). -/
def Obligations.CommandWriteIsAccepted : Prop :=
  ∀ (s s' : State) (a : Addr) (w : Word) (strb : BitVec 4),
    Arrives (.wr a w strb) s s' → wordAddr a = 0x0C →
      (s.busy = false →
        ∃ v : Word, (∀ i < 4, lane v i = if strb.getLsbD i then lane w i else 0) ∧
          step s = .next { s' with latch := v, busy := true, done := false } ∧
          State.irq { s' with latch := v, busy := true, done := false } = false) ∧
      (s.busy = true → step s = .next { s' with werr := true })

/-- 43_host_control.md R224: while BUSY = 1 a host write to any address but CTRL's and the reserved ones is dropped and sets
WERR, and one to a reserved address does nothing at all. A write whose four strobes are 0 counts as a write (log 17). -/
def Obligations.WritesWhileBusyAreDropped : Prop :=
  ∀ (s s' : State) (a : Addr) (w : Word) (strb : BitVec 4),
    Arrives (.wr a w strb) s s' → s.busy = true → wordAddr a ≠ 0x04 →
      (ReservedWord (wordAddr a) → step s = .next s') ∧
      (¬ ReservedWord (wordAddr a) → step s = .next { s' with werr := true })

/-- 20_memory.md R62, 10_state.md R37: a reserved address reads 0 and ignores writes, with no side effect, BUSY or not, in reset
or not; and no access anywhere stops the machine. -/
def Obligations.ReservedAddressesReadZeroAndIgnoreWrites : Prop :=
  (∀ (s s' : State) (a : Addr), ReservedWord (wordAddr a) →
    (HostMoves (.rd a) s s' → step s = .next { s' with replies := 0 :: s'.replies }) ∧
    (∀ w strb, HostMoves (.wr a w strb) s s' → step s = .next s')) ∧
  ∀ (s s' : State) (op : HostOp), HostMoves op s s' → ∃ t, step s = .next t

/-- 43_host_control.md R223, 20_memory.md R66, 10_state.md R29 to R32: a write to a parameter register while BUSY = 0 stores
the enabled lanes inside the register's width and changes nothing else. -/
def Obligations.ParameterWriteStoresItsEnabledLanes : Prop :=
  ∀ (s s' : State) (a : Addr) (w : Word) (strb : BitVec 4),
    Arrives (.wr a w strb) s s' → s.busy = false →
      (wordAddr a = 0x14 → ∃ v : BitVec 16, step s = .next { s' with asmNframes := v } ∧
        ∀ i < 2, v.extractLsb' (8 * i) 8 = if strb.getLsbD i then lane w i else s.asmNframes.extractLsb' (8 * i) 8) ∧
      (wordAddr a = 0x18 → ∃ v : BitVec 16, step s = .next { s' with fragMtu := v } ∧
        ∀ i < 2, v.extractLsb' (8 * i) 8 = if strb.getLsbD i then lane w i else s.fragMtu.extractLsb' (8 * i) 8) ∧
      (wordAddr a = 0x1C → step s = .next
        { s' with
          startSeq := if strb.getLsbD 0 then lane w 0 else s.startSeq
          startAck := if strb.getLsbD 1 then lane w 1 else s.startAck }) ∧
      (wordAddr a = 0x20 → ∃ v : BitVec 32, step s = .next { s' with pktSize := v } ∧
        ∀ i < 4, lane v i = if strb.getLsbD i then lane w i else lane s.pktSize i)

/-- 43_host_control.md R223, 10_state.md R24, R28, R33 to R36: while BUSY = 0 a write to ID, ERR, RES_CID, RES_LEN,
RES_NFRAMES or a CAP register changes nothing. -/
def Obligations.ReadOnlyRegistersIgnoreWrites : Prop :=
  ∀ (s s' : State) (a : Addr) (w : Word) (strb : BitVec 4),
    Arrives (.wr a w strb) s s' → s.busy = false →
      (wordAddr a = 0x00 ∨ wordAddr a = 0x10 ∨ (0x24 ≤ wordAddr a ∧ wordAddr a ≤ 0x38)) → step s = .next s'

/-- 10_state.md R24 to R36, 43_host_control.md R227: what a host read of each register returns, BUSY or not, in reset or
not. -/
def Obligations.RegisterReadsReturnTheirFields : Prop :=
  ∀ (s s' : State) (a : Addr), HostMoves (.rd a) s s' → wordAddr a < 0x3C →
    ∃ w : Word, step s = .next { s' with replies := w :: s'.replies } ∧
      (wordAddr a = 0x00 → w = 0x53415201#32) ∧
      (wordAddr a = 0x04 → w = if s.ie then 1 else 0) ∧
      (wordAddr a = 0x08 → w.getLsbD 0 = s.busy ∧ w.getLsbD 1 = s.done ∧ w.getLsbD 2 = s.werr ∧
        ∀ i, 3 ≤ i → w.getLsbD i = false) ∧
      (wordAddr a = 0x0C → w = 0) ∧
      (wordAddr a = 0x10 → w = s.errFrame ++ 0#8 ++ s.errCode) ∧
      (wordAddr a = 0x14 → w = 0#16 ++ s.asmNframes) ∧
      (wordAddr a = 0x18 → w = 0#16 ++ s.fragMtu) ∧
      (wordAddr a = 0x1C → w = 0#16 ++ s.startAck ++ s.startSeq) ∧
      (wordAddr a = 0x20 → w = s.pktSize) ∧
      (wordAddr a = 0x24 → w = 0#16 ++ s.resCid) ∧
      (wordAddr a = 0x28 → w = s.resLen) ∧
      (wordAddr a = 0x2C → w = s.resNframes) ∧
      (wordAddr a = 0x30 → w = 0x00000400#32) ∧
      (wordAddr a = 0x34 → w = 0x00020000#32) ∧
      (wordAddr a = 0x38 → w = 0x00040000#32)

/-- 20_memory.md R69, 30_encoding.md R107: a host read (a POLL's too) changes nothing of the block; of the model's own fields it
adds one reply and can take one draw. A POLL reads what an RD of its address in its place reads, and ends exactly where the
masked word is its value; else it waits at the head of the host's list (log 8, log 13, log 24). -/
def Obligations.HostReadHasNoSideEffect : Prop :=
  ∀ (s s' : State) (a : Addr) (mask v : Word),
    (HostMoves (.rd a) s s' →
      ∃ (w : Word) (d : Nat),
        (d = s.draws ∨ (d = s.draws + 1 ∧ (s.resetHeld = true ∨ (s.busy = true ∧ 0x200000 ≤ wordAddr a)))) ∧
        step s = .next { s' with replies := w :: s'.replies, draws := d }) ∧
    (HostMoves (.poll a mask v) s s' →
      ∃ (w : Word) (d : Nat),
        (d = s.draws ∨ (d = s.draws + 1 ∧ (s.resetHeld = true ∨ (s.busy = true ∧ 0x200000 ≤ wordAddr a)))) ∧
        step { s' with sched := .host :: s'.sched, inbox := .rd a :: s'.inbox } =
          .next { s' with replies := w :: s'.replies, draws := d } ∧
        step s = .next
          { s' with
            replies := w :: s'.replies
            draws := d
            inbox := if w &&& mask = v then s'.inbox else .poll a mask v :: s'.inbox })

/-- 20_memory.md R71: a host read of OUT_BUF while BUSY = 1 returns, in every lane, a free value of a draw taken for this read
alone (log 8). -/
def Obligations.OutBufReadWhileBusyIsFree : Prop :=
  ∀ (s s' : State) (a : Addr), Arrives (.rd a) s s' → s.busy = true →
    0x200000 ≤ wordAddr a → wordAddr a < 0x240000 →
      ∃ w : Word, step s = .next { s' with replies := w :: s'.replies, draws := s.draws + 1 } ∧
        ∀ i < 4, lane w i = Config.freeByte s.draws (wordAddr a - 0x200000 + i)

/-- 20_memory.md R61, R63, R64: a read of a word of DESC, IN_BUF, or (while BUSY = 0) OUT_BUF returns the buffer's four bytes,
the lowest address in lane 0. -/
def Obligations.BufferReadReturnsItsFourBytes : Prop :=
  ∀ (s s' : State) (a : Addr), Arrives (.rd a) s s' →
    ∃ w : Word,
      (0x010000 ≤ wordAddr a → wordAddr a < 0x012000 → step s = .next { s' with replies := w :: s'.replies } ∧
        ∀ i < 4, lane w i = s.desc.read (wordAddr a - 0x010000 + i)) ∧
      (0x100000 ≤ wordAddr a → wordAddr a < 0x120000 → step s = .next { s' with replies := w :: s'.replies } ∧
        ∀ i < 4, lane w i = s.inBuf.read (wordAddr a - 0x100000 + i)) ∧
      (0x200000 ≤ wordAddr a → wordAddr a < 0x240000 → s.busy = false →
        step s = .next { s' with replies := w :: s'.replies } ∧
        ∀ i < 4, lane w i = s.outBuf.read (wordAddr a - 0x200000 + i))

/-- 20_memory.md R61, R63, R64: a write to a word of DESC, IN_BUF or OUT_BUF while BUSY = 0 changes the bytes of its enabled
lanes and nothing else of the block. -/
def Obligations.BufferWriteChangesOnlyItsEnabledLanes : Prop :=
  ∀ (s s' : State) (a : Addr) (w : Word) (strb : BitVec 4), Arrives (.wr a w strb) s s' → s.busy = false →
    (0x010000 ≤ wordAddr a → wordAddr a < 0x012000 → ∃ m : Memory, step s = .next { s' with desc := m } ∧
      (∀ i < 4, m.read (wordAddr a - 0x010000 + i) =
        if strb.getLsbD i then lane w i else s.desc.read (wordAddr a - 0x010000 + i)) ∧
      ∀ x, (x < wordAddr a - 0x010000 ∨ wordAddr a - 0x010000 + 4 ≤ x) → m.read x = s.desc.read x) ∧
    (0x100000 ≤ wordAddr a → wordAddr a < 0x120000 → ∃ m : Memory, step s = .next { s' with inBuf := m } ∧
      (∀ i < 4, m.read (wordAddr a - 0x100000 + i) =
        if strb.getLsbD i then lane w i else s.inBuf.read (wordAddr a - 0x100000 + i)) ∧
      ∀ x, (x < wordAddr a - 0x100000 ∨ wordAddr a - 0x100000 + 4 ≤ x) → m.read x = s.inBuf.read x) ∧
    (0x200000 ≤ wordAddr a → wordAddr a < 0x240000 → ∃ m : Memory, step s = .next { s' with outBuf := m } ∧
      (∀ i < 4, m.read (wordAddr a - 0x200000 + i) =
        if strb.getLsbD i then lane w i else s.outBuf.read (wordAddr a - 0x200000 + i)) ∧
      ∀ x, (x < wordAddr a - 0x200000 ∨ wordAddr a - 0x200000 + 4 ≤ x) → m.read x = s.outBuf.read x)

/-! The ends of a command. -/

/-- 60_exceptions.md R243: what a failure does, with the code numbers of R240 and the frame of R242 written out, and that it
changes nothing else. -/
def Obligations.FailureLeavesOnlyItsRecord : Prop :=
  ∀ (e : Failure) (s : State), FailedWith e s (s.completeFail e)

/-- 60_exceptions.md R244: a success writes the output region of OUT_BUF and the results, and changes nothing else. -/
def Obligations.SuccessWritesOnlyItsRegionAndResults : Prop :=
  ∀ (r : Success) (s : State), SucceededWith r.cid r.len r.nframes r.out s (s.completeOk r)

/-- 10_state.md R43, 60_exceptions.md R240, R242, R245, R248, R250: every command word completes: DONE set, BUSY cleared, the IRQ
output raised exactly if CTRL.IE = 1, an error code of the table or 0, the frame named 0 on success, else 0xFFFF or a descriptor
of the command, and nothing of R243's frame changed. -/
def Obligations.EveryCommandCompletes : Prop :=
  ∀ (w : Word) (s : State), ∃ t, exec (decodeCommand w) s = .next t ∧ t.busy = false ∧ t.done = true ∧
    t.irq = s.ie ∧ t.errCode.toNat ≤ 10 ∧ (t.errCode = 0 → t.errFrame = 0) ∧
    (t.errCode ≠ 0 → t.errFrame = 0xFFFF ∨ (w = 1 ∧ t.errFrame.toNat < s.asmNframes.toNat)) ∧ CommandFrame s t

/-! ASSEMBLE. -/

/-- 41_assemble.md R160, R171: where every check passes, ASSEMBLE completes with the packet: frame 0's channel id, the payloads
one after another, in the packet buffer layout at OUT_BUF[0..4+L). -/
def Obligations.AssembleWritesThePacket : Prop :=
  ∀ s : State, AssembleAccepts s →
    ∃ t, exec .assemble s = .next t ∧
      SucceededWith (le16 (s.frameBytes 0) 2) (gathered s.asmNframes.toNat s.frameBytes s.asmNframes.toNat).length
        s.asmNframes.toNat
        (bytesLE16 (BitVec.ofNat 16 (gathered s.asmNframes.toNat s.frameBytes s.asmNframes.toNat).length) ++
          bytesLE16 (le16 (s.frameBytes 0) 2) ++ gathered s.asmNframes.toNat s.frameBytes s.asmNframes.toNat) s t ∧
      (gathered s.asmNframes.toNat s.frameBytes s.asmNframes.toNat).length ≤ 65535

/-- 41_assemble.md R160, R172, R173: ASSEMBLE reports success exactly where every check passes. -/
def Obligations.AssembleSucceedsExactlyWhenEveryCheckPasses : Prop :=
  ∀ s t : State, exec .assemble s = .next t → (t.errCode = 0 ↔ AssembleAccepts s)

/-- 41_assemble.md R161: the checks on the list, before any frame's own: an empty list, a list too long, and for a one-frame
list the fetch, a frame with no control word, and a SAR code that is not unsegmented, which comes before every other check. -/
def Obligations.AssembleChecksTheListFirst : Prop :=
  ∀ s : State,
    (s.asmNframes.toNat = 0 → ∃ t, exec .assemble s = .next t ∧ FailedWith ⟨.empty, none⟩ s t) ∧
    (1024 < s.asmNframes.toNat → ∃ t, exec .assemble s = .next t ∧ FailedWith ⟨.capacity, none⟩ s t) ∧
    (s.asmNframes.toNat = 1 → ¬ s.frameInside 0 →
      ∃ t, exec .assemble s = .next t ∧ FailedWith ⟨.capacity, some 0⟩ s t) ∧
    (s.asmNframes.toNat = 1 → s.frameInside 0 → (s.frameBytes 0).length < 6 →
      ∃ t, exec .assemble s = .next t ∧ FailedWith ⟨.lengthMismatch, some 0⟩ s t) ∧
    (s.asmNframes.toNat = 1 → s.frameInside 0 → 6 ≤ (s.frameBytes 0).length → sarCode (s.frameBytes 0) ≠ 0b00#2 →
      ∃ t, exec .assemble s = .next t ∧ FailedWith ⟨.badSegmentation, some 0⟩ s t) ∧
    (s.asmNframes.toNat = 1 → s.frameInside 0 → 6 ≤ (s.frameBytes 0).length → (s.frameBytes 0).length < 8 →
      sarCode (s.frameBytes 0) = 0b00#2 →
      ∃ t, exec .assemble s = .next t ∧ FailedWith ⟨.lengthMismatch, some 0⟩ s t)

/-- 41_assemble.md R162 to R168, R172: once the list checks pass, the first frame that lies outside IN_BUF or fails a check is
reported, with the first check it fails; later frames do not matter. -/
def Obligations.AssembleReportsTheFirstFailure : Prop :=
  ∀ (s : State) (k : Nat) (kind : ErrKind),
    s.asmNframes.toNat ≤ 1024 → k < s.asmNframes.toNat → SingleFrameOk block s.asmNframes.toNat s.frameBytes →
    (∀ j < k, s.frameInside j ∧ FramePasses block s.asmNframes.toNat s.frameBytes j) →
    ((¬ s.frameInside k ∧ kind = .capacity) ∨
      (s.frameInside k ∧ FrameFails block s.asmNframes.toNat s.frameBytes k kind)) →
    ∃ t, exec .assemble s = .next t ∧ FailedWith ⟨kind, some k⟩ s t

/-- 41_assemble.md R170: a multi-frame list whose frames all pass but whose payloads do not add up to frame 0's total length. -/
def Obligations.AssembleChecksTheTotalLast : Prop :=
  ∀ s : State, 1 < s.asmNframes.toNat → s.asmNframes.toNat ≤ 1024 →
    (∀ k < s.asmNframes.toNat, s.frameInside k ∧ FramePasses block s.asmNframes.toNat s.frameBytes k) →
    (gathered s.asmNframes.toNat s.frameBytes s.asmNframes.toNat).length ≠ (le16 (s.frameBytes 0) 6).toNat →
    ∃ t, exec .assemble s = .next t ∧ FailedWith ⟨.totalLengthMismatch, none⟩ s t

/-! FRAGMENT. -/

/-- 42_fragment.md R194: an empty packet gives one 8-byte frame with START_SEQ as it is; its ack field is START_ACK[5:0], this
block's EMPTY_ACK_FN (log 11). -/
def Obligations.FragmentOfAnEmptyPacket : Prop :=
  ∀ s : State, s.packetLegal → s.pktSize.toNat = 4 → 8 ≤ s.fragMtu.toNat →
    ∃ t, exec .fragment s = .next t ∧
      SucceededWith (le16 s.packetBytes 2) 8 1
        ([0x04, 0x00, s.inBuf.read 2, s.inBuf.read 3, s.startSeq, 0b00#2 ++ s.startAck.extractLsb' 0 6] ++
          bytesLE16 (fcs block.fcsTable
            [0x04, 0x00, s.inBuf.read 2, s.inBuf.read 3, s.startSeq, 0b00#2 ++ s.startAck.extractLsb' 0 6])) s t

/-- 42_fragment.md R195: a payload of 1 to M - 8 bytes gives one unsegmented frame with START_SEQ not reduced and
START_ACK[5:0]. -/
def Obligations.FragmentIntoOneFrame : Prop :=
  ∀ s : State, s.packetLegal → 5 ≤ s.pktSize.toNat → s.pktSize.toNat + 4 ≤ s.fragMtu.toNat →
    ∃ t body, exec .fragment s = .next t ∧
      body = bytesLE16 (BitVec.ofNat 16 s.pktSize.toNat) ++ [s.inBuf.read 2, s.inBuf.read 3, s.startSeq,
        0b00#2 ++ s.startAck.extractLsb' 0 6] ++ s.inBuf.readBytes 4 (s.pktSize.toNat - 4) ∧
      SucceededWith (le16 s.packetBytes 2) (s.pktSize.toNat + 4) 1 (body ++ bytesLE16 (fcs block.fcsTable body)) s t

/-- 42_fragment.md R196, R197, R198, R200: a longer payload with M ≥ 11 is split greedily: n frames back to back, all of M bytes but the
last of r + 8; each with its length prefix, the packet's channel id, sequence byte (START_SEQ + 2i) mod 64, SAR code by
position, START_ACK[5:0], the packet's next payload bytes and its checksum; frame 0 with the total length. -/
def Obligations.FragmentIntoASet : Prop :=
  ∀ s : State, s.packetLegal → 11 ≤ s.fragMtu.toNat → s.fragMtu.toNat < s.pktSize.toNat + 4 →
    ∃ (n r : Nat) (t : State) (out : Bytes),
      2 ≤ n ∧ 1 ≤ r ∧ r ≤ s.fragMtu.toNat - 8 ∧
      (s.fragMtu.toNat - 10) + (n - 2) * (s.fragMtu.toNat - 8) + r = s.pktSize.toNat - 4 ∧
      exec .fragment s = .next t ∧ out.length = (n - 1) * s.fragMtu.toNat + r + 8 ∧
      SucceededWith (le16 s.packetBytes 2) out.length n out s t ∧
      ∀ (i : Nat) (f : Bytes), i < n →
        f = slice out (i * s.fragMtu.toNat) (i * s.fragMtu.toNat + if i + 1 = n then r + 8 else s.fragMtu.toNat) →
          (le16 f 0).toNat + 4 = f.length ∧ f.length = (if i + 1 = n then r + 8 else s.fragMtu.toNat) ∧
          le16 f 2 = le16 s.packetBytes 2 ∧ (byteAt f 4).toNat = (s.startSeq.toNat + 2 * i) % 64 ∧
          sarCode f = (if i = 0 then 0b01#2 else if i + 1 = n then 0b10#2 else 0b11#2) ∧
          ackField f = s.startAck.extractLsb' 0 6 ∧
          (i = 0 → (le16 f 6).toNat = s.pktSize.toNat - 4) ∧
          slice f (if i = 0 then 8 else 6) (f.length - 2) =
            slice s.packetBytes (if i = 0 then 4 else 4 + (s.fragMtu.toNat - 10) + (i - 1) * (s.fragMtu.toNat - 8))
              (if i + 1 = n then s.pktSize.toNat
                else 4 + (s.fragMtu.toNat - 10) + i * (s.fragMtu.toNat - 8)) ∧
          le16 f (f.length - 2) = fcs block.fcsTable (f.take (f.length - 2))

/-- 42_fragment.md R191, R193, 60_exceptions.md R246: FRAGMENT's refusals in their order. -/
def Obligations.FragmentRefusesInOrder : Prop :=
  ∀ s : State,
    (0x20000 < s.pktSize.toNat → ∃ t, exec .fragment s = .next t ∧ FailedWith ⟨.capacity, none⟩ s t) ∧
    (s.pktSize.toNat < 4 → ∃ t, exec .fragment s = .next t ∧ FailedWith ⟨.malformed, none⟩ s t) ∧
    (4 ≤ s.pktSize.toNat → s.pktSize.toNat ≤ 0x20000 → (le16 s.packetBytes 0).toNat ≠ s.pktSize.toNat - 4 →
      ∃ t, exec .fragment s = .next t ∧ FailedWith ⟨.malformed, none⟩ s t) ∧
    (s.packetLegal → s.fragMtu.toNat < 8 → ∃ t, exec .fragment s = .next t ∧ FailedWith ⟨.malformed, none⟩ s t) ∧
    (s.packetLegal → s.fragMtu.toNat < 11 → s.fragMtu.toNat < s.pktSize.toNat + 4 →
      ∃ t, exec .fragment s = .next t ∧ FailedWith ⟨.malformed, none⟩ s t)

/-- 42_fragment.md R201, R199: FRAGMENT succeeds exactly for a legal packet with M ≥ 11, or with M ≥ 8 and a payload that fits
one frame; this block's OUT_BUF is never too small. -/
def Obligations.FragmentSucceedsExactlyWhen : Prop :=
  ∀ s t : State, exec .fragment s = .next t →
    (t.errCode = 0 ↔
      s.packetLegal ∧ 8 ≤ s.fragMtu.toNat ∧ (s.pktSize.toNat + 4 ≤ s.fragMtu.toNat ∨ 11 ≤ s.fragMtu.toNat))

/-- 42_fragment.md R201, 30_encoding.md R102: the round trip. Where FRAGMENT succeeded on s with result t, and in u the frames
of t's OUT_BUF, found by walking their length prefixes, are what the descriptors point at in order, ASSEMBLE on u succeeds with
the same channel id and leaves the packet buffer that s had in IN_BUF. -/
def Obligations.FragmentedPacketReassembles : Prop :=
  ∀ (s t u : State) (start : Nat → Nat),
    exec .fragment s = .next t → t.errCode = 0 →
    u.asmNframes.toNat = t.resNframes.toNat → t.resNframes.toNat ≤ 1024 →
    start 0 = 0 →
    (∀ k < t.resNframes.toNat,
      start (k + 1) = start k + (le16 (t.outBuf.readBytes (start k) 2) 0).toNat + 4 ∧
      u.frameInside k ∧ u.frameBytes k = t.outBuf.readBytes (start k) (start (k + 1) - start k)) →
    ∃ v, exec .assemble u = .next v ∧ v.errCode = 0 ∧ v.resCid = t.resCid ∧
      v.resLen.toNat = s.pktSize.toNat - 4 ∧ v.outBuf.readBytes 0 s.pktSize.toNat = s.packetBytes

/-- 42_fragment.md R201, 90_conflicts.md C1: with SAR_CLASS_MASK = 0xE000 the round trip fails at frame 0 whenever
START_ACK[5] = 1, for every table and size. -/
def Obligations.WideMaskBreaksTheRoundTrip : Prop :=
  ∀ (p : Config.Params) (pk : Bytes) (m : Nat) (seq ack : Byte) (r : Success) (fetch : Nat → Except Failure Bytes),
    p.sarClassMask = 0xE000#16 → p.emptyAck = emptyAckLow → ack.getLsbD 5 = true → m ≤ 65535 →
    fragmentPacket p pk m seq ack = .ok r → r.nframes ≤ p.maxFrames →
    fetch 0 = .ok (r.out.take ((le16 r.out 0).toNat + 4)) →
    assembleList p r.nframes fetch = .error ⟨.badSegmentation, some 0⟩

/-! INVALID and the register-write actions. -/

/-- 43_host_control.md R222: INVALID completes with InvalidCommand, whatever its fields and whatever the parameters and buffers
hold. -/
def Obligations.InvalidCommandFails : Prop :=
  ∀ (rsv : BitVec 28) (opc : BitVec 4) (s : State),
    ∃ t, exec (.invalid rsv opc) s = .next t ∧ FailedWith ⟨.invalidCommand, none⟩ s t ∧
      t.errWord = 0xFFFF0009#32 ∧ t.statusWord.getLsbD 1 = true

/-- 70_reset_and_hazards.md R272, 10_state.md R45: SOFT_RESET; the latch's value afterwards is free (log 6). -/
def Obligations.SoftResetResetsTheRegisters : Prop :=
  ∀ s : State, ∃ t, exec .softReset s = .next t ∧ SoftResetOf s t

/-- 43_host_control.md R225, 60_exceptions.md R250: SET_IE stores IE and changes nothing else, BUSY or not; the IRQ output follows. -/
def Obligations.SetIeStoresIeAlone : Prop :=
  ∀ (ie : Bool) (s : State), ∃ t, exec (.setIe ie) s = .next t ∧
    t.ie = ie ∧ t.busy = s.busy ∧ t.done = s.done ∧ t.werr = s.werr ∧ t.irq = (s.done && ie) ∧ SameButFlags s t

/-- 43_host_control.md R226: CLR_DONE and CLR_WERR each clear one flag and change nothing else, while BUSY = 0. -/
def Obligations.ClearsChangeOneFlag : Prop :=
  ∀ s : State, s.busy = false →
    (∃ t, exec .clrDone s = .next t ∧ t.done = false ∧ t.ie = s.ie ∧ t.busy = s.busy ∧ t.werr = s.werr ∧
      t.irq = false ∧ SameButFlags s t) ∧
    (∃ t, exec .clrWerr s = .next t ∧ t.werr = false ∧ t.ie = s.ie ∧ t.busy = s.busy ∧ t.done = s.done ∧
      SameButFlags s t)

/-- 43_host_control.md R224: while BUSY = 1 CLR_DONE and CLR_WERR are dropped and set WERR; they clear nothing. -/
def Obligations.ClearsWhileBusyAreDropped : Prop :=
  ∀ s : State, s.busy = true →
    ∀ i, (i = Instr.clrDone ∨ i = Instr.clrWerr) →
      ∃ t, exec i s = .next t ∧ t.werr = true ∧ t.done = s.done ∧ t.ie = s.ie ∧ t.busy = true ∧ SameButFlags s t

/-! Frame operations. -/

/-- 40_frame.md R138: for every table, a built frame whose prefix fits 16 bits satisfies the frame invariants that depend only on
itself. -/
def Obligations.BuiltFramePassesItsOwnChecks : Prop :=
  ∀ (p : Config.Params) (cid : Half) (sb ab : Byte) (tl : Option Half) (pay : Bytes),
    (build p cid sb ab tl pay).length - 4 ≤ 0xFFFF →
      (le16 (build p cid sb ab tl pay) 0).toNat = (build p cid sb ab tl pay).length - 4 ∧
      le16 (build p cid sb ab tl pay) ((build p cid sb ab tl pay).length - 2) =
        fcs p.fcsTable ((build p cid sb ab tl pay).take ((build p cid sb ab tl pay).length - 2)) ∧
      sarCode (build p cid sb ab tl pay) = ab.extractLsb' 6 2

/-- 40_frame.md R139: under the default table, changing one bit of the covered bytes of a frame that passes the checksum check makes
the check fail. The table is the spec's default, PRESUMED (log 9). -/
def Obligations.SingleBitErrorBreaksTheChecksum : Prop :=
  ∀ (f : Bytes) (i b : Nat), i < f.length - 2 → b < 8 → checksumOk block f = true →
    checksumOk block (f.set i (byteAt f i ^^^ BitVec.twoPow 8 b)) = false

/-- 30_encoding.md R104: every entry of the default table is what the generating loop gives (log 9). -/
def Obligations.DefaultTableIsTheGeneratedOne : Prop :=
  (∀ i : BitVec 8, block.fcsTable i = fcsRounds 8 (0#8 ++ i)) ∧
  fcs block.fcsTable [0x31, 0x32, 0x33, 0x34, 0x35, 0x36, 0x37, 0x38, 0x39] = 0xBB3D#16

/-- 40_frame.md R134, 90_conflicts.md C1: this block's predicates test bits 15:14 of the control word alone. -/
def Obligations.ClassificationReadsTheSarCodeAlone : Prop :=
  ∀ ctrl : Half,
    (isUnsegmented block ctrl = true ↔ ctrl.extractLsb' 14 2 = 0b00#2) ∧
    (isStart block ctrl = true ↔ ctrl.extractLsb' 14 2 = 0b01#2) ∧
    (isEnd block ctrl = true ↔ ctrl.extractLsb' 14 2 = 0b10#2)

/-! The whole machine. -/

/-- 20_memory.md R70, 10_state.md R26, R33 to R35, R38, 60_exceptions.md R240, R242, 42_fragment.md R199: every step keeps the
invariant, from every state that meets it. -/
def Obligations.EveryStepKeepsTheInvariant : Prop :=
  ∀ s t : State, Inv s → step s = .next t → Inv t

/-- 10_state.md R45: the state after reset meets the invariant. -/
def Obligations.ResetMeetsTheInvariant : Prop := Inv State.reset

/-- 60_exceptions.md R245, 20_memory.md R62: no step stops the machine. -/
def Obligations.NoStepFaultsOrIsRefused : Prop := ∀ s : State, ∃ t, step s = .next t

/-- 10_state.md R45, 70_reset_and_hazards.md R270, R273: the registers at reset, and when the reset input is asserted, or released
after an assertion, in any state: every register at its reset value, nothing in flight, the IRQ output 0, and DESC, IN_BUF and
OUT_BUF free values of new draws (log 4, log 24); what stands outside the block stays. Releasing a released input does nothing. -/
def Obligations.HardResetClearsTheRegisters : Prop :=
  (∀ r, State.reset.regRead r = match r with
    | .id => 0x53415201 | .capFrames => 1024 | .capInbuf => 0x20000 | .capOutbuf => 0x40000 | _ => 0) ∧
  State.reset.irq = false ∧ State.reset.resetHeld = false ∧
  ∀ (s : State) (asserted : Bool) (turns : List Turn), s.sched = .reset asserted :: turns →
    (asserted = true ∨ s.resetHeld = true →
      ∃ t, step s = .next t ∧ t.resetHeld = asserted ∧ RegistersReset t ∧
        (∀ r, t.regRead r = State.reset.regRead r) ∧ t.irq = false ∧
        (∀ a, t.desc.read a = Config.freeByte s.draws a) ∧ (∀ a, t.inBuf.read a = Config.freeByte (s.draws + 1) a) ∧
        (∀ a, t.outBuf.read a = Config.freeByte (s.draws + 2) a) ∧ t.draws = s.draws + 3 ∧
        t.inbox = s.inbox ∧ t.sched = turns ∧ t.replies = s.replies) ∧
    (asserted = false → s.resetHeld = false → step s = .next { s with sched := turns })

/-- 70_reset_and_hazards.md R270: while the reset input is asserted every register holds its reset value, whatever the host does:
nothing is in flight, the IRQ output is 0, a register read returns the reset value, and a read of DESC, IN_BUF or OUT_BUF free
values of a draw of its own (log 24). That a write then does nothing at all, so CMD takes no command and WERR stays 0, is the
model's reading (log 15). -/
def Obligations.AssertedResetHoldsTheBlock : Prop :=
  ∀ s s' : State, s.resetHeld = true →
    (Inv s → RegistersReset s ∧ s.irq = false) ∧
    (∀ a w strb, HostMoves (.wr a w strb) s s' → step s = .next s') ∧
    (∀ a, HostMoves (.rd a) s s' → Inv s → ∀ r, Reg.ofOffset (wordAddr a) = some r →
      step s = .next { s' with replies := State.reset.regRead r :: s'.replies }) ∧
    (∀ a base, HostMoves (.rd a) s s' → base ≤ wordAddr a →
      (base = 0x010000 ∧ wordAddr a < 0x012000) ∨ (base = 0x100000 ∧ wordAddr a < 0x120000) ∨
        (base = 0x200000 ∧ wordAddr a < 0x240000) →
      ∃ w : Word, step s = .next { s' with replies := w :: s'.replies, draws := s.draws + 1 } ∧
        ∀ i < 4, lane w i = Config.freeByte s.draws (wordAddr a - base + i))

/-- 10_state.md R43: the command in flight completes or is reset after at most as many moves as the given order holds, and one more;
that the engine moves once the order is used up is the model's choice of a fair order (log 3). -/
def Obligations.CommandInFlightEnds : Prop :=
  ∀ s : State, s.busy = true →
    ∃ k ≤ s.sched.length + 1, ∃ t, Host.Core.run Sys2Proof.core k s = .next t ∧ t.busy = false

/-- 60_exceptions.md R250: the IRQ output rises only in a step that completes a command or sets IE while DONE is 1. -/
def Obligations.IrqRisesOnlyByCompletionOrEnable : Prop :=
  ∀ s t : State, step s = .next t → s.irq = false → t.irq = true →
    (s.busy = true ∧ t.busy = false ∧ s.ie = true) ∨ (s.done = true ∧ s.ie = false ∧ t.ie = true)

/-- 10_state.md R28, R33 to R35, R38: ERR and the results change only in a step that completes a command, or to 0 in a reset. -/
def Obligations.ResultsChangeOnlyAtCompletionOrReset : Prop :=
  ∀ s t : State, step s = .next t →
    SameResults s t ∨ (s.busy = true ∧ t.busy = false ∧ t.done = true) ∨
    (t.errCode = 0 ∧ t.errFrame = 0 ∧ t.resCid = 0 ∧ t.resLen = 0 ∧ t.resNframes = 0 ∧
      t.busy = false ∧ t.done = false ∧ t.ie = false)

/-- 10_state.md R42, 20_memory.md R77, 43_host_control.md R224: from acceptance to completion the latch, the inputs of the command, OUT_BUF
and the last results do not change, whatever the host does short of a reset. -/
def Obligations.CommandInFlightKeepsItsInputs : Prop :=
  ∀ s t : State, step s = .next t → s.busy = true → t.busy = true →
    t.latch = s.latch ∧ t.done = s.done ∧ SameParams s t ∧ SameInBuffers s t ∧ SameOutBuf s t ∧ SameResults s t

/-- 20_memory.md R70, 10_state.md R42: a command's outcome depends on the parameter registers, DESC and IN_BUF alone: on states that
agree there it gives the same results, and on success the same output bytes: RES_LEN of them, and for ASSEMBLE four more
(10_state.md R34, R41). -/
def Obligations.OutcomeDependsOnTheInputsAlone : Prop :=
  ∀ (w : Word) (s s' : State), SameParams s s' → SameInBuffers s s' →
    ∃ t t', exec (decodeCommand w) s = .next t ∧ exec (decodeCommand w) s' = .next t' ∧ SameResults t t' ∧
      (t.errCode = 0 → ∀ a, (a < t.resLen.toNat ∨ (w = 1 ∧ a < t.resLen.toNat + 4)) →
        t'.outBuf.read a = t.outBuf.read a)

/-- 60_exceptions.md R247, 43_host_control.md R224: a dropped write that comes before COMPLETE changes the end state in WERR alone.
That a write whose four strobes are 0 counts as a write, and so sets WERR, is the model's reading (log 17). -/
def Obligations.DroppedWriteBeforeCompletionShowsInWerrAlone : Prop :=
  ∀ (s : State) (a : Addr) (w : Word) (strb : BitVec 4),
    s.resetHeld = false → s.busy = true → wordAddr a ≠ 0x04 → ¬ ReservedWord (wordAddr a) →
    ∃ t u v, hostWrite a w strb s = .next t ∧ engineTurn t = .next u ∧ engineTurn s = .next v ∧
      u = { v with werr := true }

/-- 60_exceptions.md R247, 70_reset_and_hazards.md R272: a soft reset and a COMPLETE in either order leave every register at its reset value,
with nothing in flight and DONE 0; only OUT_BUF can tell the orders apart. -/
def Obligations.SoftResetRacesEndAtResetValues : Prop :=
  ∀ s : State, s.busy = true →
    ∃ t u v w, engineTurn s = .next t ∧ exec .softReset t = .next u ∧ exec .softReset s = .next v ∧
      engineTurn v = .next w ∧ (∀ r, u.regRead r = State.reset.regRead r) ∧ (∀ r, w.regRead r = State.reset.regRead r) ∧
      SameInBuffers s u ∧ SameInBuffers s w ∧ SameOutBuf t u ∧ (∀ a, w.outBuf.read a = Config.freeByte s.draws a)
end

