-- ==== Sys2Proof/Laws/Frame.lean ====
section
/-! SUPPORT. Byte-string fields, the checksum, and what a built frame's fields read as (40_frame.md R132 to R138). -/

namespace Sys2Proof.Machine

/-! Fields. -/

@[simp] theorem length_bytesLE16 (v : Half) : (bytesLE16 v).length = 2 := rfl

/-- The two bytes of a 16-bit value put together again. -/
theorem append_bytes_eq (v : Half) : v.extractLsb' 8 8 ++ v.extractLsb' 0 8 = v := by
  apply BitVec.eq_of_getLsbD_eq
  intro i hi
  rw [BitVec.getLsbD_append, BitVec.getLsbD_extractLsb', BitVec.getLsbD_extractLsb']
  by_cases h : i < 8
  · simp [h]
  · rw [if_neg h, show 8 + (i - 8) = i by omega, decide_eq_true (by omega : i - 8 < 8), Bool.true_and]

theorem byteAt_append_left {b c : Bytes} {i : Nat} (h : i < b.length) : byteAt (b ++ c) i = byteAt b i := by
  simp [byteAt, List.getElem?_append_left h]

theorem byteAt_append_right (b c : Bytes) (i : Nat) : byteAt (b ++ c) (b.length + i) = byteAt c i := by
  simp [byteAt, List.getElem?_append_right]

theorem le16_append_left {b c : Bytes} {i : Nat} (h : i + 2 ≤ b.length) : le16 (b ++ c) i = le16 b i := by
  rw [le16, le16, byteAt_append_left (by omega), byteAt_append_left (by omega)]

theorem le16_append_right (b c : Bytes) (i : Nat) : le16 (b ++ c) (b.length + i) = le16 c i := by
  rw [le16, le16, byteAt_append_right, Nat.add_assoc, byteAt_append_right]

@[simp] theorem le16_bytesLE16 (v : Half) : le16 (bytesLE16 v) 0 = v := append_bytes_eq v

/-- A 16-bit field reads back where it was stored. -/
theorem le16_at (pre post : Bytes) (v : Half) : le16 (pre ++ (bytesLE16 v ++ post)) pre.length = v := by
  have := le16_append_right pre (bytesLE16 v ++ post) 0
  rw [Nat.add_zero] at this
  rw [this, le16_append_left (by simp), le16_bytesLE16]

@[simp] theorem length_slice (b : Bytes) (i j : Nat) : (slice b i j).length = min (j - i) (b.length - i) := by
  simp [slice]

theorem slice_append_slice (b : Bytes) {i j k : Nat} (h1 : i ≤ j) (h2 : j ≤ k) :
    slice b i j ++ slice b j k = slice b i k := by
  obtain ⟨x, rfl⟩ : ∃ x, j = i + x := ⟨j - i, by omega⟩
  obtain ⟨y, rfl⟩ : ∃ y, k = i + x + y := ⟨k - (i + x), by omega⟩
  simp only [slice, show i + x - i = x by omega, show i + x + y - (i + x) = y by omega,
    show i + x + y - i = x + y by omega, List.take_add, List.drop_drop]

theorem slice_zero_length (b : Bytes) : slice b 0 b.length = b := by simp [slice]

/-- A bounded read inside the string is the field (40_frame.md R130). -/
theorem boundedRead16_eq_some {b : Bytes} {i : Nat} (h : i + 2 ≤ b.length) : boundedRead16 b i = some (le16 b i) := if_pos h

/-- A bounded read past the end is INSUFFICIENT (40_frame.md R130). -/
theorem boundedRead16_eq_none {b : Bytes} {i : Nat} (h : b.length < i + 2) : boundedRead16 b i = none :=
  if_neg (by omega)

/-! Checksum. -/

theorem fcs_nil (t : BitVec 8 → BitVec 16) : fcs t [] = 0 := rfl

theorem fcs_append_singleton (t : BitVec 8 → BitVec 16) (s : Bytes) (x : Byte) :
    fcs t (s ++ [x]) = fcsByte t (fcs t s) x := by
  simp [fcs]

/-! Build. -/

/-- Header bytes after the length prefix: six with a total length, else four (40_frame.md R137). -/
def builtHeaderLength (tl : Option Half) : Nat := if tl.isSome then 6 else 4

@[simp] theorem length_buildHeader (cid : Half) (sb ab : Byte) (tl : Option Half) :
    (buildHeader cid sb ab tl).length = builtHeaderLength tl := by
  cases tl <;> rfl

theorem length_buildBody (cid : Half) (sb ab : Byte) (tl : Option Half) (pay : Bytes) :
    (buildBody cid sb ab tl pay).length = 2 + builtHeaderLength tl + pay.length := by
  simp [buildBody]
  omega

theorem length_build (p : Config.Params) (cid : Half) (sb ab : Byte) (tl : Option Half) (pay : Bytes) :
    (build p cid sb ab tl pay).length = 4 + builtHeaderLength tl + pay.length := by
  simp only [build, List.length_append, length_buildBody, length_bytesLE16]
  omega

theorem coveredBytes_build (p : Config.Params) (cid : Half) (sb ab : Byte) (tl : Option Half) (pay : Bytes) :
    coveredBytes (build p cid sb ab tl pay) = buildBody cid sb ab tl pay := by
  rw [coveredBytes, build, List.length_append, length_bytesLE16, Nat.add_sub_cancel, List.take_left]

theorem storedChecksum_build (p : Config.Params) (cid : Half) (sb ab : Byte) (tl : Option Half) (pay : Bytes) :
    storedChecksum (build p cid sb ab tl pay) = fcs p.fcsTable (buildBody cid sb ab tl pay) := by
  rw [storedChecksum, build, List.length_append, length_bytesLE16, Nat.add_sub_cancel]
  have := le16_append_right (buildBody cid sb ab tl pay) (bytesLE16 (fcs p.fcsTable (buildBody cid sb ab tl pay))) 0
  rw [Nat.add_zero] at this
  rw [this, le16_bytesLE16]

theorem checksumOk_build (p : Config.Params) (cid : Half) (sb ab : Byte) (tl : Option Half) (pay : Bytes) :
    checksumOk p (build p cid sb ab tl pay) = true := by
  rw [checksumOk, storedChecksum_build, coveredBytes_build, beq_self_eq_true]

/-- A built frame without a total length, byte by byte. -/
theorem build_none_eq (p : Config.Params) (cid : Half) (sb ab : Byte) (pay : Bytes) :
    build p cid sb ab none pay =
      bytesLE16 (BitVec.ofNat 16 (4 + pay.length)) ++ (bytesLE16 cid ++ ([sb, ab] ++
        (pay ++ bytesLE16 (fcs p.fcsTable (buildBody cid sb ab none pay))))) := by
  simp [build, buildBody, buildHeader]

/-- A built frame with a total length, byte by byte. -/
theorem build_some_eq (p : Config.Params) (cid : Half) (sb ab : Byte) (t : Half) (pay : Bytes) :
    build p cid sb ab (some t) pay =
      bytesLE16 (BitVec.ofNat 16 (6 + pay.length)) ++ (bytesLE16 cid ++ ([sb, ab] ++ (bytesLE16 t ++
        (pay ++ bytesLE16 (fcs p.fcsTable (buildBody cid sb ab (some t) pay)))))) := by
  simp [build, buildBody, buildHeader]

/-- The bytes of a built frame before its payload, with whatever follows the first six. -/
theorem build_eq_header (p : Config.Params) (cid : Half) (sb ab : Byte) (tl : Option Half) (pay : Bytes) :
    ∃ rest, build p cid sb ab tl pay =
      bytesLE16 (BitVec.ofNat 16 (builtHeaderLength tl + pay.length)) ++ (bytesLE16 cid ++ ([sb, ab] ++ rest)) := by
  cases tl with
  | none => exact ⟨_, build_none_eq p cid sb ab pay⟩
  | some t => exact ⟨_, build_some_eq p cid sb ab t pay⟩

theorem lengthPrefix_build (p : Config.Params) (cid : Half) (sb ab : Byte) (tl : Option Half) (pay : Bytes) :
    lengthPrefix (build p cid sb ab tl pay) = BitVec.ofNat 16 (builtHeaderLength tl + pay.length) := by
  obtain ⟨rest, h⟩ := build_eq_header p cid sb ab tl pay
  rw [lengthPrefix, h]
  exact le16_at [] _ _

theorem channelId_build (p : Config.Params) (cid : Half) (sb ab : Byte) (tl : Option Half) (pay : Bytes) :
    channelId (build p cid sb ab tl pay) = cid := by
  obtain ⟨rest, h⟩ := build_eq_header p cid sb ab tl pay
  rw [channelId, h]
  exact le16_at (bytesLE16 _) _ _

theorem seqByte_build (p : Config.Params) (cid : Half) (sb ab : Byte) (tl : Option Half) (pay : Bytes) :
    seqByte (build p cid sb ab tl pay) = sb := by
  obtain ⟨rest, h⟩ := build_eq_header p cid sb ab tl pay
  rw [seqByte, h]
  rfl

theorem byteAt_five_build (p : Config.Params) (cid : Half) (sb ab : Byte) (tl : Option Half) (pay : Bytes) :
    byteAt (build p cid sb ab tl pay) 5 = ab := by
  obtain ⟨rest, h⟩ := build_eq_header p cid sb ab tl pay
  rw [h]
  rfl

theorem controls_build (p : Config.Params) (cid : Half) (sb ab : Byte) (tl : Option Half) (pay : Bytes) :
    controls (build p cid sb ab tl pay) = ab ++ sb := by
  obtain ⟨rest, h⟩ := build_eq_header p cid sb ab tl pay
  rw [controls, h]
  rfl

theorem totalLength_build (p : Config.Params) (cid : Half) (sb ab : Byte) (t : Half) (pay : Bytes) :
    totalLength (build p cid sb ab (some t) pay) = t := by
  rw [totalLength, build_some_eq]
  exact le16_at (bytesLE16 (BitVec.ofNat 16 (6 + pay.length)) ++ (bytesLE16 cid ++ [sb, ab])) _ t

theorem slice_middle (pre mid post : Bytes) {i j : Nat} (hi : i = pre.length) (hj : j = pre.length + mid.length) :
    slice (pre ++ (mid ++ post)) i j = mid := by
  subst hi hj
  rw [slice, List.drop_left, Nat.add_sub_cancel_left, List.take_left]

theorem payload_build (p : Config.Params) (cid : Half) (sb ab : Byte) (tl : Option Half) (pay : Bytes) :
    payload (build p cid sb ab tl pay) tl.isSome = pay := by
  rw [payload, length_build]
  cases tl with
  | none =>
    rw [build_none_eq]
    exact slice_middle (bytesLE16 (BitVec.ofNat 16 (4 + pay.length)) ++ (bytesLE16 cid ++ [sb, ab])) pay _ rfl
      (by simp [builtHeaderLength]; omega)
  | some t =>
    rw [build_some_eq]
    exact slice_middle (bytesLE16 (BitVec.ofNat 16 (6 + pay.length)) ++ (bytesLE16 cid ++ ([sb, ab] ++ bytesLE16 t))) pay
      _ rfl (by simp [builtHeaderLength]; omega)

/-- The SAR code of an ack/segmentation byte {sar, a}. -/
theorem sarByte_sar (sar : BitVec 2) (a : BitVec 6) : (sarByte sar a).extractLsb' 6 2 = sar := by
  apply BitVec.eq_of_getLsbD_eq
  intro i hi
  rw [BitVec.getLsbD_extractLsb', sarByte, BitVec.getLsbD_append]
  simp [hi]

/-- The ack field of an ack/segmentation byte {sar, a}. -/
theorem sarByte_ack (sar : BitVec 2) (a : BitVec 6) : (sarByte sar a).extractLsb' 0 6 = a := by
  apply BitVec.eq_of_getLsbD_eq
  intro i hi
  rw [BitVec.getLsbD_extractLsb', sarByte, BitVec.getLsbD_append]
  simp [hi]

/-- Under the mask 0xC000 a classification reads the SAR code alone (40_frame.md R134). -/
theorem and_mask_sarByte (sar : BitVec 2) (a : BitVec 6) (sb : Byte) :
    (sarByte sar a ++ sb : BitVec 16) &&& 0xC000#16 = sar ++ 0#14 := by
  apply BitVec.eq_of_getLsbD_eq
  intro i hi
  simp only [BitVec.getLsbD_and, sarByte, BitVec.getLsbD_append]
  interval_cases i <;> simp

end Sys2Proof.Machine
end

