-- ==== Sys2Proof/Laws/Memory.lean ====
section
/-! SUPPORT. Byte memories: read after write, the canonical form and that every operation keeps it, equal contents are
equal data. -/

namespace Sys2Proof.Machine

theorem lookupCell_insertCell (cs : List Host.Cell) (a x : Nat) (b : Byte) :
    lookupCell (insertCell cs a b) x = if a = x then some b else lookupCell cs x := by
  induction cs with
  | nil => simp [insertCell, lookupCell]
  | cons c cs ih =>
    obtain ⟨y, v⟩ := c
    simp only [insertCell]
    split
    · simp [lookupCell]
    · split
      · subst_vars
        simp only [lookupCell]
        split <;> simp_all
      · simp only [lookupCell, ih]
        split
        · subst_vars
          rw [if_neg (by omega)]
        · rfl

theorem Memory.read_write_self (m : Memory) (a : Nat) (b : Byte) : (m.write a b).read a = b := by
  simp [Memory.read, Memory.write, lookupCell_insertCell]

theorem Memory.read_write_of_ne (m : Memory) {a x : Nat} (b : Byte) (h : a ≠ x) :
    (m.write a b).read x = m.read x := by
  simp [Memory.read, Memory.write, lookupCell_insertCell, h]

theorem Memory.read_write (m : Memory) (a x : Nat) (b : Byte) :
    (m.write a b).read x = if a = x then b else m.read x := by
  split
  · subst_vars; exact m.read_write_self x b
  · exact m.read_write_of_ne b ‹_›

@[simp] theorem Memory.write_draw (m : Memory) (a : Nat) (b : Byte) : (m.write a b).draw = m.draw := rfl

@[simp] theorem Memory.unspecified_draw (d : Nat) : (Memory.unspecified d).draw = d := rfl

@[simp] theorem Memory.read_unspecified (d a : Nat) : (Memory.unspecified d).read a = Config.freeByte d a := rfl

theorem mem_insertCell {cs : List Host.Cell} {a : Nat} {b : Byte} {c : Host.Cell}
    (h : c ∈ insertCell cs a b) : c = (a, b) ∨ c ∈ cs := by
  induction cs with
  | nil => simpa [insertCell] using h
  | cons d cs ih =>
    obtain ⟨y, v⟩ := d
    simp only [insertCell] at h
    split at h
    · simpa using h
    · split at h
      · rcases List.mem_cons.1 h with h | h
        · exact .inl h
        · exact .inr (List.mem_cons_of_mem _ h)
      · rcases List.mem_cons.1 h with h | h
        · exact .inr (h ▸ List.mem_cons_self)
        · rcases ih h with h | h
          · exact .inl h
          · exact .inr (List.mem_cons_of_mem _ h)

theorem insertCell_rising {cs : List Host.Cell} (a : Nat) (b : Byte)
    (h : cs.Pairwise (fun x y => x.1 < y.1)) : (insertCell cs a b).Pairwise (fun x y => x.1 < y.1) := by
  induction cs with
  | nil => simp [insertCell]
  | cons d cs ih =>
    obtain ⟨y, v⟩ := d
    obtain ⟨hd, ht⟩ := List.pairwise_cons.1 h
    simp only [insertCell]
    split
    · rename_i hlt
      refine List.pairwise_cons.2 ⟨fun c hc => ?_, h⟩
      rcases List.mem_cons.1 hc with rfl | hc
      · exact hlt
      · exact lt_trans hlt (hd c hc)
    · split
      · subst_vars
        exact List.pairwise_cons.2 ⟨hd, ht⟩
      · refine List.pairwise_cons.2 ⟨fun c hc => ?_, ih ht⟩
        rcases mem_insertCell hc with rfl | hc
        · show y < a
          omega
        · exact hd c hc

theorem Memory.wf_unspecified (size d : Nat) : (Memory.unspecified d).wf size := by
  simp [Memory.wf, Memory.unspecified]

theorem Memory.wf_write {size : Nat} {m : Memory} {a : Nat} (b : Byte) (h : m.wf size) (ha : a < size) :
    (m.write a b).wf size :=
  ⟨insertCell_rising a b h.1, fun c hc => (mem_insertCell hc).elim (fun e => e ▸ ha) (h.2 c)⟩

theorem Memory.wf_writeBytes {size : Nat} {m : Memory} {a : Nat} {bs : Bytes} (h : m.wf size)
    (ha : a + bs.length ≤ size) : (m.writeBytes a bs).wf size := by
  induction bs generalizing m a with
  | nil => exact h
  | cons b bs ih =>
    simp only [List.length_cons] at ha
    exact ih (Memory.wf_write b h (by omega)) (by omega)

theorem Memory.wf_writeLane {size : Nat} {m : Memory} (a : Nat) (w : Word) (strb : BitVec 4) (i : Nat)
    (h : m.wf size) : (m.writeLane size a w strb i).wf size := by
  unfold Memory.writeLane
  split
  · exact Memory.wf_write _ h (And.right ‹_›)
  · exact h

theorem Memory.wf_writeWord {size : Nat} {m : Memory} (a : Nat) (w : Word) (strb : BitVec 4) (h : m.wf size) :
    (m.writeWord size a w strb).wf size :=
  Memory.wf_writeLane _ _ _ _ (Memory.wf_writeLane _ _ _ _ (Memory.wf_writeLane _ _ _ _ (Memory.wf_writeLane _ _ _ _ h)))

@[simp] theorem Memory.writeBytes_draw (m : Memory) (a : Nat) (bs : Bytes) : (m.writeBytes a bs).draw = m.draw := by
  induction bs generalizing m a with
  | nil => rfl
  | cons b bs ih => exact ih _ _

@[simp] theorem Memory.writeLane_draw (size : Nat) (m : Memory) (a : Nat) (w : Word) (strb : BitVec 4) (i : Nat) :
    (m.writeLane size a w strb i).draw = m.draw := by
  unfold Memory.writeLane
  split <;> rfl

@[simp] theorem Memory.writeWord_draw (size : Nat) (m : Memory) (a : Nat) (w : Word) (strb : BitVec 4) :
    (m.writeWord size a w strb).draw = m.draw := by
  simp [Memory.writeWord]

/-- Everything a byte-string write does, byte by byte. -/
theorem Memory.read_writeBytes (m : Memory) (a : Nat) (bs : Bytes) (x : Nat) :
    (m.writeBytes a bs).read x = if a ≤ x ∧ x < a + bs.length then bs.getD (x - a) 0 else m.read x := by
  induction bs generalizing m a with
  | nil => rw [if_neg (by simp)]; rfl
  | cons b bs ih =>
    rw [Memory.writeBytes, ih, Memory.read_write, List.length_cons]
    by_cases h1 : a + 1 ≤ x ∧ x < a + 1 + bs.length
    · obtain ⟨k, rfl⟩ : ∃ k, x = a + 1 + k := ⟨x - (a + 1), by omega⟩
      rw [if_pos h1, if_pos (by omega), show a + 1 + k - (a + 1) = k by omega,
        show a + 1 + k - a = k + 1 by omega, List.getD_cons_succ]
    · by_cases h2 : a = x
      · subst h2
        rw [if_neg (by omega), if_pos rfl, if_pos (by omega)]
        simp
      · rw [if_neg h1, if_neg h2, if_neg (by omega)]

theorem Memory.read_writeLane (size : Nat) (m : Memory) (a : Nat) (w : Word) (strb : BitVec 4) (i x : Nat) :
    (m.writeLane size a w strb i).read x =
      if strb.getLsbD i = true ∧ a + i < size ∧ x = a + i then lane w i else m.read x := by
  unfold Memory.writeLane
  split
  · rw [Memory.read_write]
    split <;> rename_i h1 h2
    · rw [if_pos ⟨h1.1, h1.2, h2.symm⟩]
    · rw [if_neg (fun h => h2 h.2.2.symm)]
  · rename_i hn
    rw [if_neg (fun h => hn ⟨h.1, h.2.1⟩)]

/-- Everything a strobed word write does: byte a + i takes lane i where the strobe is 1 and the byte exists; every other
byte keeps its value (20_memory.md R63). -/
theorem Memory.read_writeWord (size : Nat) (m : Memory) (a : Nat) (w : Word) (strb : BitVec 4) (x : Nat) :
    (m.writeWord size a w strb).read x =
      if a ≤ x ∧ x < a + 4 ∧ x < size ∧ strb.getLsbD (x - a) = true then lane w (x - a) else m.read x := by
  simp only [Memory.writeWord, Memory.read_writeLane]
  by_cases h : a ≤ x ∧ x < a + 4
  · obtain ⟨k, rfl⟩ : ∃ k, x = a + k := ⟨x - a, by omega⟩
    have hk : k < 4 := by omega
    simp only [Nat.add_sub_cancel_left]
    interval_cases k <;> simp +contextual [and_comm]
  · rw [if_neg (by omega), if_neg (by omega), if_neg (by omega), if_neg (by omega), if_neg (by omega)]

@[simp] theorem Memory.length_readBytes (m : Memory) (a n : Nat) : (m.readBytes a n).length = n := by
  simp [Memory.readBytes]

theorem Memory.getElem_readBytes (m : Memory) (a n i : Nat) (h : i < (m.readBytes a n).length) :
    (m.readBytes a n)[i] = m.read (a + i) := by
  simp [Memory.readBytes]

/-- A byte string written and read back. -/
theorem Memory.readBytes_writeBytes_self (m : Memory) (a : Nat) (bs : Bytes) :
    (m.writeBytes a bs).readBytes a bs.length = bs := by
  apply List.ext_getElem (by simp)
  intro i h1 h2
  rw [Memory.getElem_readBytes, Memory.read_writeBytes, if_pos (by omega), Nat.add_sub_cancel_left]
  simp [h2]

/-- Reading a byte string depends only on the bytes read. -/
theorem Memory.readBytes_congr {m m' : Memory} {a a' n : Nat} (h : ∀ i < n, m.read (a + i) = m'.read (a' + i)) :
    m.readBytes a n = m'.readBytes a' n := by
  apply List.ext_getElem (by simp)
  intro i h1 h2
  rw [Memory.getElem_readBytes, Memory.getElem_readBytes]
  exact h i (by simpa using h1)

theorem lookupCell_eq_none_of_lt {cs : List Host.Cell} {a : Nat} (h : ∀ c ∈ cs, a < c.1) : lookupCell cs a = none := by
  induction cs with
  | nil => rfl
  | cons c cs ih =>
    obtain ⟨y, v⟩ := c
    have hy : a < y := h (y, v) List.mem_cons_self
    rw [lookupCell, if_neg (by omega)]
    exact ih fun c hc => h c (List.mem_cons_of_mem _ hc)

/-- The canonical form makes equal contents equal data. -/
theorem cells_eq_of_lookup_eq {cs ds : List Host.Cell} (hc : cs.Pairwise (fun x y => x.1 < y.1))
    (hd : ds.Pairwise (fun x y => x.1 < y.1)) (h : ∀ a, lookupCell cs a = lookupCell ds a) : cs = ds := by
  induction cs generalizing ds with
  | nil =>
    cases ds with
    | nil => rfl
    | cons d ds => exact absurd (h d.1) (by simp [lookupCell])
  | cons c cs ih =>
    obtain ⟨hc1, hc2⟩ := List.pairwise_cons.1 hc
    cases ds with
    | nil => exact absurd (h c.1) (by simp [lookupCell])
    | cons d ds =>
      obtain ⟨hd1, hd2⟩ := List.pairwise_cons.1 hd
      obtain ⟨x, v⟩ := c
      obtain ⟨y, u⟩ := d
      have hxy : x = y := by
        rcases lt_trichotomy x y with hlt | heq | hgt
        · have := h x
          rw [lookupCell, if_pos rfl, lookupCell_eq_none_of_lt (a := x) ?_] at this
          · cases this
          · intro e he
            rcases List.mem_cons.1 he with rfl | he
            · exact hlt
            · exact lt_trans hlt (hd1 e he)
        · exact heq
        · have := h y
          rw [lookupCell_eq_none_of_lt (a := y) ?_, lookupCell, if_pos rfl] at this
          · cases this
          · intro e he
            rcases List.mem_cons.1 he with rfl | he
            · exact hgt
            · exact lt_trans hgt (hc1 e he)
      subst hxy
      have hv : v = u := by simpa [lookupCell] using h x
      subst hv
      congr 1
      apply ih hc2 hd2
      intro a
      by_cases ha : x = a
      · subst ha
        rw [lookupCell_eq_none_of_lt hc1, lookupCell_eq_none_of_lt hd1]
      · simpa [lookupCell, ha] using h a

/-- Two memories of one draw in canonical form with the same written bytes are the same data. -/
theorem Memory.eq_of_lookup_eq {size : Nat} {m n : Memory} (hm : m.wf size) (hn : n.wf size) (hd : m.draw = n.draw)
    (h : ∀ a, lookupCell m.cells a = lookupCell n.cells a) : m = n := by
  obtain ⟨d, cs⟩ := m
  obtain ⟨e, ds⟩ := n
  obtain rfl : d = e := hd
  exact congrArg (Memory.mk d) (cells_eq_of_lookup_eq hm.1 hn.1 h)

/-- The memories after reset are in canonical form. -/
theorem reset_memories_wf (n : Nat) :
    State.reset.desc.wf n ∧ State.reset.inBuf.wf n ∧ State.reset.outBuf.wf n := by
  simp [State.reset, Memory.wf]

end Sys2Proof.Machine
end

