-- ==== Sys2Proof/Laws/State.lean ====
section
/-! SUPPORT. One lemma per field per named update of State, each true by rfl, so that no later proof unfolds a record
update. -/

namespace Sys2Proof.Machine

/-! finish -/

@[simp] theorem State.finish_ie (s : State) : s.finish.ie = s.ie := rfl
@[simp] theorem State.finish_busy (s : State) : s.finish.busy = false := rfl
@[simp] theorem State.finish_done (s : State) : s.finish.done = true := rfl
@[simp] theorem State.finish_werr (s : State) : s.finish.werr = s.werr := rfl
@[simp] theorem State.finish_errCode (s : State) : s.finish.errCode = s.errCode := rfl
@[simp] theorem State.finish_errFrame (s : State) : s.finish.errFrame = s.errFrame := rfl
@[simp] theorem State.finish_asmNframes (s : State) : s.finish.asmNframes = s.asmNframes := rfl
@[simp] theorem State.finish_fragMtu (s : State) : s.finish.fragMtu = s.fragMtu := rfl
@[simp] theorem State.finish_startSeq (s : State) : s.finish.startSeq = s.startSeq := rfl
@[simp] theorem State.finish_startAck (s : State) : s.finish.startAck = s.startAck := rfl
@[simp] theorem State.finish_pktSize (s : State) : s.finish.pktSize = s.pktSize := rfl
@[simp] theorem State.finish_resCid (s : State) : s.finish.resCid = s.resCid := rfl
@[simp] theorem State.finish_resLen (s : State) : s.finish.resLen = s.resLen := rfl
@[simp] theorem State.finish_resNframes (s : State) : s.finish.resNframes = s.resNframes := rfl
@[simp] theorem State.finish_latch (s : State) : s.finish.latch = s.latch := rfl
@[simp] theorem State.finish_desc (s : State) : s.finish.desc = s.desc := rfl
@[simp] theorem State.finish_inBuf (s : State) : s.finish.inBuf = s.inBuf := rfl
@[simp] theorem State.finish_outBuf (s : State) : s.finish.outBuf = s.outBuf := rfl
@[simp] theorem State.finish_resetHeld (s : State) : s.finish.resetHeld = s.resetHeld := rfl
@[simp] theorem State.finish_draws (s : State) : s.finish.draws = s.draws := rfl
@[simp] theorem State.finish_inbox (s : State) : s.finish.inbox = s.inbox := rfl
@[simp] theorem State.finish_sched (s : State) : s.finish.sched = s.sched := rfl
@[simp] theorem State.finish_replies (s : State) : s.finish.replies = s.replies := rfl

/-! completeFail -/

@[simp] theorem State.completeFail_ie (e : Failure) (s : State) : (s.completeFail e).ie = s.ie := rfl
@[simp] theorem State.completeFail_busy (e : Failure) (s : State) : (s.completeFail e).busy = false := rfl
@[simp] theorem State.completeFail_done (e : Failure) (s : State) : (s.completeFail e).done = true := rfl
@[simp] theorem State.completeFail_werr (e : Failure) (s : State) : (s.completeFail e).werr = s.werr := rfl
@[simp] theorem State.completeFail_errCode (e : Failure) (s : State) : (s.completeFail e).errCode = e.kind.code := rfl
@[simp] theorem State.completeFail_errFrame (e : Failure) (s : State) : (s.completeFail e).errFrame = e.errFrame := rfl
@[simp] theorem State.completeFail_asmNframes (e : Failure) (s : State) : (s.completeFail e).asmNframes = s.asmNframes := rfl
@[simp] theorem State.completeFail_fragMtu (e : Failure) (s : State) : (s.completeFail e).fragMtu = s.fragMtu := rfl
@[simp] theorem State.completeFail_startSeq (e : Failure) (s : State) : (s.completeFail e).startSeq = s.startSeq := rfl
@[simp] theorem State.completeFail_startAck (e : Failure) (s : State) : (s.completeFail e).startAck = s.startAck := rfl
@[simp] theorem State.completeFail_pktSize (e : Failure) (s : State) : (s.completeFail e).pktSize = s.pktSize := rfl
@[simp] theorem State.completeFail_resCid (e : Failure) (s : State) : (s.completeFail e).resCid = 0 := rfl
@[simp] theorem State.completeFail_resLen (e : Failure) (s : State) : (s.completeFail e).resLen = 0 := rfl
@[simp] theorem State.completeFail_resNframes (e : Failure) (s : State) : (s.completeFail e).resNframes = 0 := rfl
@[simp] theorem State.completeFail_latch (e : Failure) (s : State) : (s.completeFail e).latch = s.latch := rfl
@[simp] theorem State.completeFail_desc (e : Failure) (s : State) : (s.completeFail e).desc = s.desc := rfl
@[simp] theorem State.completeFail_inBuf (e : Failure) (s : State) : (s.completeFail e).inBuf = s.inBuf := rfl
@[simp] theorem State.completeFail_outBuf (e : Failure) (s : State) : (s.completeFail e).outBuf = Memory.unspecified s.draws := rfl
@[simp] theorem State.completeFail_resetHeld (e : Failure) (s : State) : (s.completeFail e).resetHeld = s.resetHeld := rfl
@[simp] theorem State.completeFail_draws (e : Failure) (s : State) : (s.completeFail e).draws = s.draws + 1 := rfl
@[simp] theorem State.completeFail_inbox (e : Failure) (s : State) : (s.completeFail e).inbox = s.inbox := rfl
@[simp] theorem State.completeFail_sched (e : Failure) (s : State) : (s.completeFail e).sched = s.sched := rfl
@[simp] theorem State.completeFail_replies (e : Failure) (s : State) : (s.completeFail e).replies = s.replies := rfl

/-! completeOk -/

@[simp] theorem State.completeOk_ie (r : Success) (s : State) : (s.completeOk r).ie = s.ie := rfl
@[simp] theorem State.completeOk_busy (r : Success) (s : State) : (s.completeOk r).busy = false := rfl
@[simp] theorem State.completeOk_done (r : Success) (s : State) : (s.completeOk r).done = true := rfl
@[simp] theorem State.completeOk_werr (r : Success) (s : State) : (s.completeOk r).werr = s.werr := rfl
@[simp] theorem State.completeOk_errCode (r : Success) (s : State) : (s.completeOk r).errCode = 0 := rfl
@[simp] theorem State.completeOk_errFrame (r : Success) (s : State) : (s.completeOk r).errFrame = 0 := rfl
@[simp] theorem State.completeOk_asmNframes (r : Success) (s : State) : (s.completeOk r).asmNframes = s.asmNframes := rfl
@[simp] theorem State.completeOk_fragMtu (r : Success) (s : State) : (s.completeOk r).fragMtu = s.fragMtu := rfl
@[simp] theorem State.completeOk_startSeq (r : Success) (s : State) : (s.completeOk r).startSeq = s.startSeq := rfl
@[simp] theorem State.completeOk_startAck (r : Success) (s : State) : (s.completeOk r).startAck = s.startAck := rfl
@[simp] theorem State.completeOk_pktSize (r : Success) (s : State) : (s.completeOk r).pktSize = s.pktSize := rfl
@[simp] theorem State.completeOk_resCid (r : Success) (s : State) : (s.completeOk r).resCid = r.cid := rfl
@[simp] theorem State.completeOk_resLen (r : Success) (s : State) : (s.completeOk r).resLen = BitVec.ofNat 32 r.len := rfl
@[simp] theorem State.completeOk_resNframes (r : Success) (s : State) : (s.completeOk r).resNframes = BitVec.ofNat 32 r.nframes := rfl
@[simp] theorem State.completeOk_latch (r : Success) (s : State) : (s.completeOk r).latch = s.latch := rfl
@[simp] theorem State.completeOk_desc (r : Success) (s : State) : (s.completeOk r).desc = s.desc := rfl
@[simp] theorem State.completeOk_inBuf (r : Success) (s : State) : (s.completeOk r).inBuf = s.inBuf := rfl
@[simp] theorem State.completeOk_outBuf (r : Success) (s : State) : (s.completeOk r).outBuf = s.outBuf.writeBytes 0 r.out := rfl
@[simp] theorem State.completeOk_resetHeld (r : Success) (s : State) : (s.completeOk r).resetHeld = s.resetHeld := rfl
@[simp] theorem State.completeOk_draws (r : Success) (s : State) : (s.completeOk r).draws = s.draws := rfl
@[simp] theorem State.completeOk_inbox (r : Success) (s : State) : (s.completeOk r).inbox = s.inbox := rfl
@[simp] theorem State.completeOk_sched (r : Success) (s : State) : (s.completeOk r).sched = s.sched := rfl
@[simp] theorem State.completeOk_replies (r : Success) (s : State) : (s.completeOk r).replies = s.replies := rfl

/-! accept -/

@[simp] theorem State.accept_ie (w : Word) (s : State) : (s.accept w).ie = s.ie := rfl
@[simp] theorem State.accept_busy (w : Word) (s : State) : (s.accept w).busy = true := rfl
@[simp] theorem State.accept_done (w : Word) (s : State) : (s.accept w).done = false := rfl
@[simp] theorem State.accept_werr (w : Word) (s : State) : (s.accept w).werr = s.werr := rfl
@[simp] theorem State.accept_errCode (w : Word) (s : State) : (s.accept w).errCode = s.errCode := rfl
@[simp] theorem State.accept_errFrame (w : Word) (s : State) : (s.accept w).errFrame = s.errFrame := rfl
@[simp] theorem State.accept_asmNframes (w : Word) (s : State) : (s.accept w).asmNframes = s.asmNframes := rfl
@[simp] theorem State.accept_fragMtu (w : Word) (s : State) : (s.accept w).fragMtu = s.fragMtu := rfl
@[simp] theorem State.accept_startSeq (w : Word) (s : State) : (s.accept w).startSeq = s.startSeq := rfl
@[simp] theorem State.accept_startAck (w : Word) (s : State) : (s.accept w).startAck = s.startAck := rfl
@[simp] theorem State.accept_pktSize (w : Word) (s : State) : (s.accept w).pktSize = s.pktSize := rfl
@[simp] theorem State.accept_resCid (w : Word) (s : State) : (s.accept w).resCid = s.resCid := rfl
@[simp] theorem State.accept_resLen (w : Word) (s : State) : (s.accept w).resLen = s.resLen := rfl
@[simp] theorem State.accept_resNframes (w : Word) (s : State) : (s.accept w).resNframes = s.resNframes := rfl
@[simp] theorem State.accept_latch (w : Word) (s : State) : (s.accept w).latch = w := rfl
@[simp] theorem State.accept_desc (w : Word) (s : State) : (s.accept w).desc = s.desc := rfl
@[simp] theorem State.accept_inBuf (w : Word) (s : State) : (s.accept w).inBuf = s.inBuf := rfl
@[simp] theorem State.accept_outBuf (w : Word) (s : State) : (s.accept w).outBuf = s.outBuf := rfl
@[simp] theorem State.accept_resetHeld (w : Word) (s : State) : (s.accept w).resetHeld = s.resetHeld := rfl
@[simp] theorem State.accept_draws (w : Word) (s : State) : (s.accept w).draws = s.draws := rfl
@[simp] theorem State.accept_inbox (w : Word) (s : State) : (s.accept w).inbox = s.inbox := rfl
@[simp] theorem State.accept_sched (w : Word) (s : State) : (s.accept w).sched = s.sched := rfl
@[simp] theorem State.accept_replies (w : Word) (s : State) : (s.accept w).replies = s.replies := rfl

/-! dropWrite -/

@[simp] theorem State.dropWrite_ie (s : State) : s.dropWrite.ie = s.ie := rfl
@[simp] theorem State.dropWrite_busy (s : State) : s.dropWrite.busy = s.busy := rfl
@[simp] theorem State.dropWrite_done (s : State) : s.dropWrite.done = s.done := rfl
@[simp] theorem State.dropWrite_werr (s : State) : s.dropWrite.werr = true := rfl
@[simp] theorem State.dropWrite_errCode (s : State) : s.dropWrite.errCode = s.errCode := rfl
@[simp] theorem State.dropWrite_errFrame (s : State) : s.dropWrite.errFrame = s.errFrame := rfl
@[simp] theorem State.dropWrite_asmNframes (s : State) : s.dropWrite.asmNframes = s.asmNframes := rfl
@[simp] theorem State.dropWrite_fragMtu (s : State) : s.dropWrite.fragMtu = s.fragMtu := rfl
@[simp] theorem State.dropWrite_startSeq (s : State) : s.dropWrite.startSeq = s.startSeq := rfl
@[simp] theorem State.dropWrite_startAck (s : State) : s.dropWrite.startAck = s.startAck := rfl
@[simp] theorem State.dropWrite_pktSize (s : State) : s.dropWrite.pktSize = s.pktSize := rfl
@[simp] theorem State.dropWrite_resCid (s : State) : s.dropWrite.resCid = s.resCid := rfl
@[simp] theorem State.dropWrite_resLen (s : State) : s.dropWrite.resLen = s.resLen := rfl
@[simp] theorem State.dropWrite_resNframes (s : State) : s.dropWrite.resNframes = s.resNframes := rfl
@[simp] theorem State.dropWrite_latch (s : State) : s.dropWrite.latch = s.latch := rfl
@[simp] theorem State.dropWrite_desc (s : State) : s.dropWrite.desc = s.desc := rfl
@[simp] theorem State.dropWrite_inBuf (s : State) : s.dropWrite.inBuf = s.inBuf := rfl
@[simp] theorem State.dropWrite_outBuf (s : State) : s.dropWrite.outBuf = s.outBuf := rfl
@[simp] theorem State.dropWrite_resetHeld (s : State) : s.dropWrite.resetHeld = s.resetHeld := rfl
@[simp] theorem State.dropWrite_draws (s : State) : s.dropWrite.draws = s.draws := rfl
@[simp] theorem State.dropWrite_inbox (s : State) : s.dropWrite.inbox = s.inbox := rfl
@[simp] theorem State.dropWrite_sched (s : State) : s.dropWrite.sched = s.sched := rfl
@[simp] theorem State.dropWrite_replies (s : State) : s.dropWrite.replies = s.replies := rfl

/-! clearDone -/

@[simp] theorem State.clearDone_ie (s : State) : s.clearDone.ie = s.ie := rfl
@[simp] theorem State.clearDone_busy (s : State) : s.clearDone.busy = s.busy := rfl
@[simp] theorem State.clearDone_done (s : State) : s.clearDone.done = false := rfl
@[simp] theorem State.clearDone_werr (s : State) : s.clearDone.werr = s.werr := rfl
@[simp] theorem State.clearDone_errCode (s : State) : s.clearDone.errCode = s.errCode := rfl
@[simp] theorem State.clearDone_errFrame (s : State) : s.clearDone.errFrame = s.errFrame := rfl
@[simp] theorem State.clearDone_asmNframes (s : State) : s.clearDone.asmNframes = s.asmNframes := rfl
@[simp] theorem State.clearDone_fragMtu (s : State) : s.clearDone.fragMtu = s.fragMtu := rfl
@[simp] theorem State.clearDone_startSeq (s : State) : s.clearDone.startSeq = s.startSeq := rfl
@[simp] theorem State.clearDone_startAck (s : State) : s.clearDone.startAck = s.startAck := rfl
@[simp] theorem State.clearDone_pktSize (s : State) : s.clearDone.pktSize = s.pktSize := rfl
@[simp] theorem State.clearDone_resCid (s : State) : s.clearDone.resCid = s.resCid := rfl
@[simp] theorem State.clearDone_resLen (s : State) : s.clearDone.resLen = s.resLen := rfl
@[simp] theorem State.clearDone_resNframes (s : State) : s.clearDone.resNframes = s.resNframes := rfl
@[simp] theorem State.clearDone_latch (s : State) : s.clearDone.latch = s.latch := rfl
@[simp] theorem State.clearDone_desc (s : State) : s.clearDone.desc = s.desc := rfl
@[simp] theorem State.clearDone_inBuf (s : State) : s.clearDone.inBuf = s.inBuf := rfl
@[simp] theorem State.clearDone_outBuf (s : State) : s.clearDone.outBuf = s.outBuf := rfl
@[simp] theorem State.clearDone_resetHeld (s : State) : s.clearDone.resetHeld = s.resetHeld := rfl
@[simp] theorem State.clearDone_draws (s : State) : s.clearDone.draws = s.draws := rfl
@[simp] theorem State.clearDone_inbox (s : State) : s.clearDone.inbox = s.inbox := rfl
@[simp] theorem State.clearDone_sched (s : State) : s.clearDone.sched = s.sched := rfl
@[simp] theorem State.clearDone_replies (s : State) : s.clearDone.replies = s.replies := rfl

/-! clearWerr -/

@[simp] theorem State.clearWerr_ie (s : State) : s.clearWerr.ie = s.ie := rfl
@[simp] theorem State.clearWerr_busy (s : State) : s.clearWerr.busy = s.busy := rfl
@[simp] theorem State.clearWerr_done (s : State) : s.clearWerr.done = s.done := rfl
@[simp] theorem State.clearWerr_werr (s : State) : s.clearWerr.werr = false := rfl
@[simp] theorem State.clearWerr_errCode (s : State) : s.clearWerr.errCode = s.errCode := rfl
@[simp] theorem State.clearWerr_errFrame (s : State) : s.clearWerr.errFrame = s.errFrame := rfl
@[simp] theorem State.clearWerr_asmNframes (s : State) : s.clearWerr.asmNframes = s.asmNframes := rfl
@[simp] theorem State.clearWerr_fragMtu (s : State) : s.clearWerr.fragMtu = s.fragMtu := rfl
@[simp] theorem State.clearWerr_startSeq (s : State) : s.clearWerr.startSeq = s.startSeq := rfl
@[simp] theorem State.clearWerr_startAck (s : State) : s.clearWerr.startAck = s.startAck := rfl
@[simp] theorem State.clearWerr_pktSize (s : State) : s.clearWerr.pktSize = s.pktSize := rfl
@[simp] theorem State.clearWerr_resCid (s : State) : s.clearWerr.resCid = s.resCid := rfl
@[simp] theorem State.clearWerr_resLen (s : State) : s.clearWerr.resLen = s.resLen := rfl
@[simp] theorem State.clearWerr_resNframes (s : State) : s.clearWerr.resNframes = s.resNframes := rfl
@[simp] theorem State.clearWerr_latch (s : State) : s.clearWerr.latch = s.latch := rfl
@[simp] theorem State.clearWerr_desc (s : State) : s.clearWerr.desc = s.desc := rfl
@[simp] theorem State.clearWerr_inBuf (s : State) : s.clearWerr.inBuf = s.inBuf := rfl
@[simp] theorem State.clearWerr_outBuf (s : State) : s.clearWerr.outBuf = s.outBuf := rfl
@[simp] theorem State.clearWerr_resetHeld (s : State) : s.clearWerr.resetHeld = s.resetHeld := rfl
@[simp] theorem State.clearWerr_draws (s : State) : s.clearWerr.draws = s.draws := rfl
@[simp] theorem State.clearWerr_inbox (s : State) : s.clearWerr.inbox = s.inbox := rfl
@[simp] theorem State.clearWerr_sched (s : State) : s.clearWerr.sched = s.sched := rfl
@[simp] theorem State.clearWerr_replies (s : State) : s.clearWerr.replies = s.replies := rfl

/-! softReset -/

@[simp] theorem State.softReset_ie (s : State) : s.softReset.ie = false := rfl
@[simp] theorem State.softReset_busy (s : State) : s.softReset.busy = false := rfl
@[simp] theorem State.softReset_done (s : State) : s.softReset.done = false := rfl
@[simp] theorem State.softReset_werr (s : State) : s.softReset.werr = false := rfl
@[simp] theorem State.softReset_errCode (s : State) : s.softReset.errCode = 0 := rfl
@[simp] theorem State.softReset_errFrame (s : State) : s.softReset.errFrame = 0 := rfl
@[simp] theorem State.softReset_asmNframes (s : State) : s.softReset.asmNframes = 0 := rfl
@[simp] theorem State.softReset_fragMtu (s : State) : s.softReset.fragMtu = 0 := rfl
@[simp] theorem State.softReset_startSeq (s : State) : s.softReset.startSeq = 0 := rfl
@[simp] theorem State.softReset_startAck (s : State) : s.softReset.startAck = 0 := rfl
@[simp] theorem State.softReset_pktSize (s : State) : s.softReset.pktSize = 0 := rfl
@[simp] theorem State.softReset_resCid (s : State) : s.softReset.resCid = 0 := rfl
@[simp] theorem State.softReset_resLen (s : State) : s.softReset.resLen = 0 := rfl
@[simp] theorem State.softReset_resNframes (s : State) : s.softReset.resNframes = 0 := rfl
@[simp] theorem State.softReset_latch (s : State) : s.softReset.latch = Config.freeWord s.draws := rfl
@[simp] theorem State.softReset_desc (s : State) : s.softReset.desc = s.desc := rfl
@[simp] theorem State.softReset_inBuf (s : State) : s.softReset.inBuf = s.inBuf := rfl
@[simp] theorem State.softReset_outBuf (s : State) : s.softReset.outBuf = if s.busy then Memory.unspecified s.draws else s.outBuf := rfl
@[simp] theorem State.softReset_resetHeld (s : State) : s.softReset.resetHeld = s.resetHeld := rfl
@[simp] theorem State.softReset_draws (s : State) : s.softReset.draws = s.draws + 1 := rfl
@[simp] theorem State.softReset_inbox (s : State) : s.softReset.inbox = s.inbox := rfl
@[simp] theorem State.softReset_sched (s : State) : s.softReset.sched = s.sched := rfl
@[simp] theorem State.softReset_replies (s : State) : s.softReset.replies = s.replies := rfl

/-! hardReset -/

@[simp] theorem State.hardReset_ie (b : Bool) (s : State) : (s.hardReset b).ie = false := rfl
@[simp] theorem State.hardReset_busy (b : Bool) (s : State) : (s.hardReset b).busy = false := rfl
@[simp] theorem State.hardReset_done (b : Bool) (s : State) : (s.hardReset b).done = false := rfl
@[simp] theorem State.hardReset_werr (b : Bool) (s : State) : (s.hardReset b).werr = false := rfl
@[simp] theorem State.hardReset_errCode (b : Bool) (s : State) : (s.hardReset b).errCode = 0 := rfl
@[simp] theorem State.hardReset_errFrame (b : Bool) (s : State) : (s.hardReset b).errFrame = 0 := rfl
@[simp] theorem State.hardReset_asmNframes (b : Bool) (s : State) : (s.hardReset b).asmNframes = 0 := rfl
@[simp] theorem State.hardReset_fragMtu (b : Bool) (s : State) : (s.hardReset b).fragMtu = 0 := rfl
@[simp] theorem State.hardReset_startSeq (b : Bool) (s : State) : (s.hardReset b).startSeq = 0 := rfl
@[simp] theorem State.hardReset_startAck (b : Bool) (s : State) : (s.hardReset b).startAck = 0 := rfl
@[simp] theorem State.hardReset_pktSize (b : Bool) (s : State) : (s.hardReset b).pktSize = 0 := rfl
@[simp] theorem State.hardReset_resCid (b : Bool) (s : State) : (s.hardReset b).resCid = 0 := rfl
@[simp] theorem State.hardReset_resLen (b : Bool) (s : State) : (s.hardReset b).resLen = 0 := rfl
@[simp] theorem State.hardReset_resNframes (b : Bool) (s : State) : (s.hardReset b).resNframes = 0 := rfl
@[simp] theorem State.hardReset_latch (b : Bool) (s : State) : (s.hardReset b).latch = 0 := rfl
@[simp] theorem State.hardReset_desc (b : Bool) (s : State) : (s.hardReset b).desc = Memory.unspecified s.draws := rfl
@[simp] theorem State.hardReset_inBuf (b : Bool) (s : State) : (s.hardReset b).inBuf = Memory.unspecified (s.draws + 1) := rfl
@[simp] theorem State.hardReset_outBuf (b : Bool) (s : State) : (s.hardReset b).outBuf = Memory.unspecified (s.draws + 2) := rfl
@[simp] theorem State.hardReset_resetHeld (b : Bool) (s : State) : (s.hardReset b).resetHeld = b := rfl
@[simp] theorem State.hardReset_draws (b : Bool) (s : State) : (s.hardReset b).draws = s.draws + 3 := rfl
@[simp] theorem State.hardReset_inbox (b : Bool) (s : State) : (s.hardReset b).inbox = s.inbox := rfl
@[simp] theorem State.hardReset_sched (b : Bool) (s : State) : (s.hardReset b).sched = s.sched := rfl
@[simp] theorem State.hardReset_replies (b : Bool) (s : State) : (s.hardReset b).replies = s.replies := rfl

/-! reply -/

@[simp] theorem State.reply_ie (w : Word) (s : State) : (s.reply w).ie = s.ie := rfl
@[simp] theorem State.reply_busy (w : Word) (s : State) : (s.reply w).busy = s.busy := rfl
@[simp] theorem State.reply_done (w : Word) (s : State) : (s.reply w).done = s.done := rfl
@[simp] theorem State.reply_werr (w : Word) (s : State) : (s.reply w).werr = s.werr := rfl
@[simp] theorem State.reply_errCode (w : Word) (s : State) : (s.reply w).errCode = s.errCode := rfl
@[simp] theorem State.reply_errFrame (w : Word) (s : State) : (s.reply w).errFrame = s.errFrame := rfl
@[simp] theorem State.reply_asmNframes (w : Word) (s : State) : (s.reply w).asmNframes = s.asmNframes := rfl
@[simp] theorem State.reply_fragMtu (w : Word) (s : State) : (s.reply w).fragMtu = s.fragMtu := rfl
@[simp] theorem State.reply_startSeq (w : Word) (s : State) : (s.reply w).startSeq = s.startSeq := rfl
@[simp] theorem State.reply_startAck (w : Word) (s : State) : (s.reply w).startAck = s.startAck := rfl
@[simp] theorem State.reply_pktSize (w : Word) (s : State) : (s.reply w).pktSize = s.pktSize := rfl
@[simp] theorem State.reply_resCid (w : Word) (s : State) : (s.reply w).resCid = s.resCid := rfl
@[simp] theorem State.reply_resLen (w : Word) (s : State) : (s.reply w).resLen = s.resLen := rfl
@[simp] theorem State.reply_resNframes (w : Word) (s : State) : (s.reply w).resNframes = s.resNframes := rfl
@[simp] theorem State.reply_latch (w : Word) (s : State) : (s.reply w).latch = s.latch := rfl
@[simp] theorem State.reply_desc (w : Word) (s : State) : (s.reply w).desc = s.desc := rfl
@[simp] theorem State.reply_inBuf (w : Word) (s : State) : (s.reply w).inBuf = s.inBuf := rfl
@[simp] theorem State.reply_outBuf (w : Word) (s : State) : (s.reply w).outBuf = s.outBuf := rfl
@[simp] theorem State.reply_resetHeld (w : Word) (s : State) : (s.reply w).resetHeld = s.resetHeld := rfl
@[simp] theorem State.reply_draws (w : Word) (s : State) : (s.reply w).draws = s.draws := rfl
@[simp] theorem State.reply_inbox (w : Word) (s : State) : (s.reply w).inbox = s.inbox := rfl
@[simp] theorem State.reply_sched (w : Word) (s : State) : (s.reply w).sched = s.sched := rfl
@[simp] theorem State.reply_replies (w : Word) (s : State) : (s.reply w).replies = w :: s.replies := rfl

end Sys2Proof.Machine
end

