-- ==== Sys2Proof/Laws/Assemble.lean ====
section
/-! SUPPORT. What one frame's checks, the per-frame loop and the whole of ASSEMBLE answer, in terms of the frames
alone (41_assemble.md R160 to R172). -/

namespace Sys2Proof.Machine

/-- The locals ASSEMBLE has before frame k when frames 0 to k-1 of nf passed. -/
def localsAt (nf : Nat) (fr : Nat → Bytes) (k : Nat) : AsmLocals where
  cid := if k = 0 then 0 else channelId (fr 0)
  prevSeq := if k = 0 then 0 else seqByte (fr (k - 1))
  total := if k = 0 ∨ ¬ 1 < nf then 0 else totalLength (fr 0)
  acc := gathered nf fr k

theorem localsAt_zero (nf : Nat) (fr : Nat → Bytes) : localsAt nf fr 0 = AsmLocals.start := by
  simp [localsAt, AsmLocals.start, gathered]

theorem isFirst_eq (nf k : Nat) : isFirst nf k = decide (k = 0 ∧ 1 < nf) := by
  simp [isFirst, Bool.decide_and, BEq.beq]

theorem push_localsAt (nf : Nat) (fr : Nat → Bytes) (k : Nat) :
    (localsAt nf fr k).push nf k (fr k) = localsAt nf fr (k + 1) := by
  rcases Nat.eq_zero_or_pos k with rfl | hk
  · by_cases h : 1 < nf <;> simp [AsmLocals.push, localsAt, gathered, isFirst_eq, payload, headerSize, h]
  · have h0 : k ≠ 0 := by omega
    simp [AsmLocals.push, localsAt, gathered, isFirst_eq, payload, headerSize, h0]

/-! One frame. -/

theorem lengthOk_iff (nf : Nat) (fr : Nat → Bytes) (k : Nat) :
    LengthOk nf fr k ↔ minFrameSize (isFirst nf k) ≤ (fr k).length ∧ (lengthPrefix (fr k)).toNat = (fr k).length - 4 := by
  have hm : minFrameSize (isFirst nf k) = if k = 0 ∧ 1 < nf then 10 else 8 := by
    rw [isFirst_eq, minFrameSize]
    by_cases h : k = 0 ∧ 1 < nf <;> simp [h]
  have h8 : 8 ≤ minFrameSize (isFirst nf k) := by
    rw [minFrameSize]
    split <;> omega
  rw [LengthOk, ← hm, lengthPrefix]
  constructor
  · rintro ⟨h1, h2⟩
    exact ⟨h1, by omega⟩
  · rintro ⟨h1, h2⟩
    exact ⟨h1, by omega⟩

theorem checksumMatches_iff (p : Config.Params) (fr : Nat → Bytes) (k : Nat) :
    ChecksumMatches p fr k ↔ checksumOk p (fr k) = true := by
  rw [checksumOk, beq_iff_eq]
  rfl

theorem segmentationOk_iff (p : Config.Params) (nf : Nat) (fr : Nat → Bytes) (k : Nat) :
    SegmentationOk p nf fr k ↔ badSegmentation p nf k (controls (fr k)) = false := by
  simp only [SegmentationOk, badSegmentation, isFirst, isLast, isStart, isEnd, controls]
  by_cases h1 : 1 < nf
  · simp only [h1, decide_true, Bool.and_true, Bool.true_and, true_implies, Bool.or_eq_false_iff,
      Bool.and_eq_false_iff, Bool.not_eq_false', beq_iff_eq, beq_eq_false_iff_ne, decide_eq_false_iff_not, ne_eq]
    constructor
    · rintro ⟨a, b, c⟩
      refine ⟨⟨?_, ?_⟩, ?_⟩
      · by_cases hk : k = 0
        · exact .inr (a hk)
        · exact .inl hk
      · by_cases hk : 0 < k
        · by_cases hl : k + 1 < nf
          · exact .inr (b hk hl)
          · exact .inl (.inr hl)
        · exact .inl (.inl hk)
      · by_cases hl : k + 1 = nf
        · exact .inr (c hl)
        · exact .inl hl
    · rintro ⟨⟨a, b⟩, c⟩
      refine ⟨fun h => a.resolve_left (not_not_intro h), fun hk hl => ?_, fun h => c.resolve_left (not_not_intro h)⟩
      rcases b with (b | b) | b
      · exact absurd hk b
      · exact absurd hl b
      · exact b
  · simp [h1]

/-- What the checks of frame k answer, given the frames before it. -/
theorem frameError_localsAt (p : Config.Params) (nf : Nat) (fr : Nat → Bytes) (k : Nat) :
    (frameError p nf k (localsAt nf fr k) (fr k) = none ∧ FramePasses p nf fr k) ∨
    ∃ kind, frameError p nf k (localsAt nf fr k) (fr k) = some kind ∧ FrameFails p nf fr k kind := by
  have hcid : (channelId (fr k) ≠ if k = 0 then channelId (fr k) else (localsAt nf fr k).cid) ↔ ¬ ChannelOk fr k := by
    rcases Nat.eq_zero_or_pos k with rfl | hk
    · simp [ChannelOk]
    · have h0 : k ≠ 0 := by omega
      simp [ChannelOk, localsAt, h0, channelId]
  have hseq : (0 < k ∧ (seqByte (fr k)).toNat ≠ ((localsAt nf fr k).prevSeq.toNat + 2) % 64) ↔ ¬ SequenceOk fr k := by
    rcases Nat.eq_zero_or_pos k with rfl | hk
    · simp [SequenceOk]
    · have h0 : k ≠ 0 := by omega
      simp [SequenceOk, localsAt, h0, hk, seqByte]
  unfold frameError
  by_cases hl : LengthOk nf fr k
  · have hl' := (lengthOk_iff nf fr k).1 hl
    rw [if_neg (by omega), if_neg (not_not_intro hl'.2)]
    by_cases hc : ChecksumMatches p fr k
    · rw [if_neg (by rw [(checksumMatches_iff p fr k).1 hc]; decide)]
      by_cases hch : ChannelOk fr k
      · rw [if_neg (fun h => hcid.1 h hch)]
        by_cases hs : SequenceOk fr k
        · rw [if_neg (fun h => hseq.1 h hs)]
          by_cases hg : SegmentationOk p nf fr k
          · rw [if_neg (by rw [(segmentationOk_iff p nf fr k).1 hg]; decide)]
            exact .inl ⟨rfl, hl, hc, hch, hs, hg⟩
          · rw [if_pos (by simpa using fun h => hg ((segmentationOk_iff p nf fr k).2 h))]
            exact .inr ⟨_, rfl, .segmentation hl hc hch hs hg⟩
        · rw [if_pos (hseq.2 hs)]
          exact .inr ⟨_, rfl, .sequence hl hc hch hs⟩
      · rw [if_pos (hcid.2 hch)]
        exact .inr ⟨_, rfl, .channel hl hc hch⟩
    · rw [if_pos (by simpa using fun h => hc ((checksumMatches_iff p fr k).2 h))]
      exact .inr ⟨_, rfl, .checksum hl hc⟩
  · refine .inr ⟨_, ?_, .length hl⟩
    by_cases h1 : (fr k).length < minFrameSize (isFirst nf k)
    · rw [if_pos h1]
    · rw [if_neg h1, if_pos fun h2 => hl ((lengthOk_iff nf fr k).2 ⟨by omega, h2⟩)]

theorem FrameFails.not_passes {p : Config.Params} {nf : Nat} {fr : Nat → Bytes} {k : Nat} {kind : ErrKind}
    (h : FrameFails p nf fr k kind) : ¬ FramePasses p nf fr k := by
  rintro ⟨a, b, c, d, e⟩
  cases h <;> contradiction

theorem FrameFails.unique {p : Config.Params} {nf : Nat} {fr : Nat → Bytes} {k : Nat} {kind kind' : ErrKind}
    (h : FrameFails p nf fr k kind) (h' : FrameFails p nf fr k kind') : kind = kind' := by
  cases h <;> cases h' <;> first | rfl | contradiction

theorem frameError_of_passes {p : Config.Params} {nf : Nat} {fr : Nat → Bytes} {k : Nat} (h : FramePasses p nf fr k) :
    frameError p nf k (localsAt nf fr k) (fr k) = none := by
  rcases frameError_localsAt p nf fr k with ⟨h', _⟩ | ⟨kind, _, hf⟩
  · exact h'
  · exact absurd h hf.not_passes

theorem frameError_of_fails {p : Config.Params} {nf : Nat} {fr : Nat → Bytes} {k : Nat} {kind : ErrKind}
    (h : FrameFails p nf fr k kind) : frameError p nf k (localsAt nf fr k) (fr k) = some kind := by
  rcases frameError_localsAt p nf fr k with ⟨_, h'⟩ | ⟨kind', h', hf⟩
  · exact absurd h' h.not_passes
  · rw [h', hf.unique h]

/-! The loop. -/

/-- The loop moves past frames that can be fetched and pass. -/
theorem assembleLoop_past {p : Config.Params} {nf : Nat} {fetch : Nat → Except Failure Bytes} {fr : Nat → Bytes}
    {n : Nat} (hf : ∀ k < n, fetch k = .ok (fr k)) (hp : ∀ k < n, FramePasses p nf fr k) (m : Nat) :
    assembleLoop p nf fetch (n + m) 0 AsmLocals.start = assembleLoop p nf fetch m n (localsAt nf fr n) := by
  induction n generalizing m with
  | zero => rw [Nat.zero_add, localsAt_zero]
  | succ n ih =>
    rw [show n + 1 + m = n + (m + 1) by omega, ih (fun k hk => hf k (by omega)) (fun k hk => hp k (by omega)),
      assembleLoop, hf n (by omega)]
    simp only [frameError_of_passes (hp n (by omega)), push_localsAt]

/-- The loop over frames that all pass. -/
theorem assembleLoop_of_pass {p : Config.Params} {nf : Nat} {fetch : Nat → Except Failure Bytes} {fr : Nat → Bytes}
    (hf : ∀ k < nf, fetch k = .ok (fr k)) (hp : ∀ k < nf, FramePasses p nf fr k) :
    assembleLoop p nf fetch nf 0 AsmLocals.start = .ok (localsAt nf fr nf) := by
  have := assembleLoop_past hf hp 0
  rwa [Nat.add_zero] at this

/-- The loop stops at the first frame that cannot be fetched (41_assemble.md R162). -/
theorem assembleLoop_of_fetch_error {p : Config.Params} {nf n k : Nat} {fetch : Nat → Except Failure Bytes}
    {fr : Nat → Bytes} {e : Failure} (hk : k < n) (hf : ∀ j < k, fetch j = .ok (fr j))
    (hp : ∀ j < k, FramePasses p nf fr j) (he : fetch k = .error e) :
    assembleLoop p nf fetch n 0 AsmLocals.start = .error e := by
  obtain ⟨m, rfl⟩ : ∃ m, n = k + (m + 1) := ⟨n - k - 1, by omega⟩
  rw [assembleLoop_past hf hp, assembleLoop, he]

/-- The loop stops at the first frame that fails a check (41_assemble.md R172). -/
theorem assembleLoop_of_fails {p : Config.Params} {nf n k : Nat} {fetch : Nat → Except Failure Bytes}
    {fr : Nat → Bytes} {kind : ErrKind} (hk : k < n) (hf : ∀ j ≤ k, fetch j = .ok (fr j))
    (hp : ∀ j < k, FramePasses p nf fr j) (he : FrameFails p nf fr k kind) :
    assembleLoop p nf fetch n 0 AsmLocals.start = .error ⟨kind, some k⟩ := by
  obtain ⟨m, rfl⟩ : ∃ m, n = k + (m + 1) := ⟨n - k - 1, by omega⟩
  rw [assembleLoop_past (fun j hj => hf j (by omega)) hp, assembleLoop, hf k (Nat.le_refl k)]
  simp only [frameError_of_fails he]

/-- Everything the loop can answer: all n frames pass, or a first frame cannot be fetched, or a first frame fails. -/
theorem assembleLoop_cases (p : Config.Params) (nf : Nat) (fetch : Nat → Except Failure Bytes) (fr : Nat → Bytes)
    (n : Nat) (hfetch : ∀ k f, fetch k = .ok f → f = fr k) :
    ((∀ k < n, fetch k = .ok (fr k) ∧ FramePasses p nf fr k) ∧
      assembleLoop p nf fetch n 0 AsmLocals.start = .ok (localsAt nf fr n)) ∨
    (∃ k < n, ∃ e, (∀ j < k, fetch j = .ok (fr j) ∧ FramePasses p nf fr j) ∧ fetch k = .error e ∧
      assembleLoop p nf fetch n 0 AsmLocals.start = .error e) ∨
    (∃ k < n, ∃ kind, (∀ j < k, fetch j = .ok (fr j) ∧ FramePasses p nf fr j) ∧ fetch k = .ok (fr k) ∧
      FrameFails p nf fr k kind ∧ assembleLoop p nf fetch n 0 AsmLocals.start = .error ⟨kind, some k⟩) := by
  by_cases hall : ∀ k < n, fetch k = .ok (fr k) ∧ FramePasses p nf fr k
  · have := assembleLoop_past (fun k hk => (hall k hk).1) (fun k hk => (hall k hk).2) 0
    exact .inl ⟨hall, by rwa [Nat.add_zero] at this⟩
  · have hex : ∃ k, k < n ∧ ¬ (fetch k = .ok (fr k) ∧ FramePasses p nf fr k) := by
      simpa only [not_forall, exists_prop] using hall
    classical
    obtain ⟨hk, hbad⟩ := Nat.find_spec hex
    have hbefore : ∀ j < Nat.find hex, fetch j = .ok (fr j) ∧ FramePasses p nf fr j := fun j hj => by
      have := Nat.find_min hex hj
      exact not_not.1 fun h => this ⟨by omega, h⟩
    cases hfk : fetch (Nat.find hex) with
    | error e =>
      exact .inr (.inl ⟨_, hk, e, hbefore, hfk,
        assembleLoop_of_fetch_error hk (fun j hj => (hbefore j hj).1) (fun j hj => (hbefore j hj).2) hfk⟩)
    | ok f =>
      obtain rfl := hfetch _ _ hfk
      rcases frameError_localsAt p nf fr (Nat.find hex) with ⟨_, h⟩ | ⟨kind, _, hf⟩
      · exact absurd ⟨hfk, h⟩ hbad
      · refine .inr (.inr ⟨_, hk, kind, hbefore, hfk, hf, assembleLoop_of_fails hk (fun j hj => ?_)
          (fun j hj => (hbefore j hj).2) hf⟩)
        rcases Nat.lt_or_eq_of_le hj with hj | rfl
        · exact (hbefore j hj).1
        · exact hfk

/-! The whole command. -/

theorem State.fetch_of_inside {s : State} {k : Nat} (h : s.frameInside k) : s.fetch block k = .ok (s.frameBytes k) := by
  unfold State.frameInside at h
  rw [State.fetch, if_neg (by omega)]
  rfl

theorem State.fetch_of_not_inside {s : State} {k : Nat} (h : ¬ s.frameInside k) :
    s.fetch block k = .error ⟨.capacity, some k⟩ := by
  unfold State.frameInside at h
  rw [State.fetch, if_pos (by omega)]

/-- What the checks before the loop answer (41_assemble.md R161). -/
theorem listError_eq_none {p : Config.Params} {nf : Nat} {fetch : Nat → Except Failure Bytes} {fr : Nat → Bytes}
    (h0 : nf ≠ 0) (hmax : nf ≤ p.maxFrames) (hf : nf = 1 → fetch 0 = .ok (fr 0)) (hs : SingleFrameOk p nf fr) :
    listError p nf fetch = none := by
  rw [listError, if_neg h0, if_neg (by omega)]
  by_cases h1 : nf = 1
  · rw [if_pos h1, hf h1]
    obtain ⟨ha, hb⟩ := hs h1
    have hu : isUnsegmented p (controls (fr 0)) = true := by rw [isUnsegmented, beq_iff_eq]; exact hb
    simp only [hu]
    rw [if_neg (by omega), if_neg (by decide)]
  · rw [if_neg h1]

/-- ASSEMBLE of frames that all pass ends in the total-length check (41_assemble.md R170, R171). -/
theorem assembleList_of_pass {p : Config.Params} {nf : Nat} {fetch : Nat → Except Failure Bytes} {fr : Nat → Bytes}
    (h0 : nf ≠ 0) (hmax : nf ≤ p.maxFrames) (hf : ∀ k < nf, fetch k = .ok (fr k)) (hs : SingleFrameOk p nf fr)
    (hp : ∀ k < nf, FramePasses p nf fr k) :
    assembleList p nf fetch = assembleEnd nf (localsAt nf fr nf) := by
  rw [assembleList, listError_eq_none h0 hmax (fun h => hf 0 (by omega)) hs]
  simp only [assembleLoop_of_pass hf hp]

end Sys2Proof.Machine
end

