-- ==== Sys2Proof/Laws/Fragment.lean ====
section
/-! SUPPORT. The arithmetic of the split, and the frames of a multi-frame set one by one (42_fragment.md R196 to
R200). -/

namespace Sys2Proof.Machine

/-! The split. -/

/-- What splitOf answers where FRAGMENT splits: frame 0, whole frames and a last frame of 1 to c bytes add up to the
payload (42_fragment.md R198). -/
structure Split.Fits (sp : Split) (len m : Nat) : Prop where
  c1_eq : sp.c1 + 10 = m
  c_eq : sp.c + 8 = m
  c1_pos : 1 ≤ sp.c1
  n_ge : 2 ≤ sp.n
  r_pos : 1 ≤ sp.r
  r_le : sp.r ≤ sp.c
  sum : sp.c1 + (sp.n - 2) * sp.c + sp.r = len

theorem splitOf_fits {len m : Nat} (hm : 11 ≤ m) (hlen : m - 8 < len) : (splitOf len m).Fits len m := by
  have hc : 0 < m - 8 := by omega
  have hlow := Nat.div_mul_le_self (len - (m - 10) + (m - 8) - 1) (m - 8)
  have hhigh := Nat.lt_div_mul_add (a := len - (m - 10) + (m - 8) - 1) hc
  have hq : 1 ≤ (len - (m - 10) + (m - 8) - 1) / (m - 8) := (Nat.one_le_div_iff hc).2 (by omega)
  simp only [splitOf]
  generalize (len - (m - 10) + (m - 8) - 1) / (m - 8) = q at *
  obtain ⟨x, rfl⟩ : ∃ x, q = x + 1 := ⟨q - 1, by omega⟩
  have hx : 1 + (x + 1) - 2 = x := by omega
  rw [Nat.add_mul, Nat.one_mul] at hlow hhigh
  constructor <;> simp only [hx] <;> omega

/-- Where frame i's payload starts (42_fragment.md R198). -/
def Split.posAt (sp : Split) (i : Nat) : Nat := if i = 0 then 0 else sp.c1 + (i - 1) * sp.c

theorem Split.posAt_succ {sp : Split} {i : Nat} (h : i + 1 < sp.n) : sp.posAt (i + 1) = sp.posAt i + sp.take i := by
  rcases Nat.eq_zero_or_pos i with rfl | hi
  · simp [Split.posAt, Split.take]
  · obtain ⟨j, rfl⟩ : ∃ j, i = j + 1 := ⟨i - 1, by omega⟩
    rw [Split.posAt, Split.posAt, Split.take, if_neg (by omega), if_neg (by omega), if_neg (by omega), if_neg (by omega)]
    simp only [Nat.add_sub_cancel, Nat.add_mul, Nat.one_mul]
    omega

theorem Split.Fits.last {sp : Split} {len m : Nat} (h : sp.Fits len m) : sp.posAt (sp.n - 1) + sp.r = len := by
  have h2 := h.n_ge
  have hs := h.sum
  rw [Split.posAt, if_neg (by omega), show sp.n - 1 - 1 = sp.n - 2 by omega]
  exact hs

theorem Split.Fits.posAt_take_le {sp : Split} {len m i : Nat} (h : sp.Fits len m) (hi : i < sp.n) :
    sp.posAt i + sp.take i ≤ len := by
  have hl := h.last
  have hmono : ∀ j, i + 1 + j < sp.n → sp.posAt (i + 1) ≤ sp.posAt (i + 1 + j) := by
    intro j
    induction j with
    | zero => intro _; exact Nat.le_refl _
    | succ j ih =>
      intro hj
      have := ih (by omega)
      have h' := Split.posAt_succ (sp := sp) (i := i + 1 + j) (by omega)
      rw [show i + 1 + (j + 1) = i + 1 + j + 1 by omega, h']
      omega
  rcases Nat.lt_or_ge (i + 1) sp.n with hlt | hge
  · have h1 := hmono (sp.n - 1 - (i + 1)) (by omega)
    rw [show i + 1 + (sp.n - 1 - (i + 1)) = sp.n - 1 by omega, Split.posAt_succ hlt] at h1
    omega
  · have hn := h.n_ge
    obtain rfl : i = sp.n - 1 := by omega
    rw [Split.take, if_neg (by omega), if_pos (by omega)]
    omega

/-- The total output size is the payload plus 8 bytes a frame plus the total-length field (42_fragment.md R199). -/
theorem Split.Fits.totalSize_eq {sp : Split} {len m : Nat} (h : sp.Fits len m) :
    sp.totalSize m = len + 8 * sp.n + 2 := by
  obtain ⟨h1, h2, _, h4, _, _, h7⟩ := h
  obtain ⟨x, hx⟩ : ∃ x, sp.n = x + 2 := ⟨sp.n - 2, by omega⟩
  rw [Split.totalSize, hx, show x + 2 - 1 = x + 1 by omega]
  rw [hx, show x + 2 - 2 = x by omega] at h7
  rw [← h2, Nat.add_mul, Nat.mul_add]
  omega

/-- No packet makes more than 21846 frames (42_fragment.md R199). -/
theorem Split.Fits.n_le {sp : Split} {len m : Nat} (h : sp.Fits len m) (hlen : len ≤ 65535) : sp.n ≤ 21846 := by
  obtain ⟨h1, h2, h3, h4, h5, _, h7⟩ := h
  have : (sp.n - 2) * 3 ≤ (sp.n - 2) * sp.c := Nat.mul_le_mul_left _ (by omega)
  omega

/-! The frames of a set. -/

/-- Frame i of a set, from its own index alone. -/
def setFrameAt (p : Config.Params) (a : FragArgs) (sp : Split) (pay : Bytes) (i : Nat) : Bytes :=
  setFrame p a sp pay i (sp.posAt i)

theorem fragmentLoop_eq_map (p : Config.Params) (a : FragArgs) (sp : Split) (pay : Bytes) (m i : Nat)
    (h : i + m = sp.n) :
    fragmentLoop p a sp pay m i (sp.posAt i) = (List.range' i m).map (setFrameAt p a sp pay) := by
  induction m generalizing i with
  | zero => rfl
  | succ m ih =>
    rw [fragmentLoop, List.range'_succ, List.map_cons]
    congr 1
    rcases Nat.eq_zero_or_pos m with rfl | hm
    · rfl
    · rw [← Split.posAt_succ (by omega), ih (i + 1) (by omega)]

theorem fragmentLoop_eq (p : Config.Params) (a : FragArgs) (sp : Split) (pay : Bytes) :
    fragmentLoop p a sp pay sp.n 0 0 = (List.range sp.n).map (setFrameAt p a sp pay) := by
  have := fragmentLoop_eq_map p a sp pay sp.n 0 (by omega)
  rw [List.range_eq_range']
  exact this

/-- Payload bytes of frame i. -/
theorem length_setFrame_payload {sp : Split} {pay : Bytes} {m i : Nat} (h : sp.Fits pay.length m) (hi : i < sp.n) :
    (slice pay (sp.posAt i) (sp.posAt i + sp.take i)).length = sp.take i := by
  have := h.posAt_take_le hi
  rw [length_slice]
  omega

/-- Every frame but the last is M bytes, the last r + 8 (42_fragment.md R198). -/
theorem length_setFrameAt (p : Config.Params) (a : FragArgs) {sp : Split} {pay : Bytes} {m i : Nat}
    (h : sp.Fits pay.length m) (hi : i < sp.n) :
    (setFrameAt p a sp pay i).length = if i + 1 = sp.n then sp.r + 8 else m := by
  have hn := h.n_ge
  have h1 := h.c1_eq
  have h2 := h.c_eq
  rw [setFrameAt, setFrame, length_build, length_setFrame_payload h hi, Split.take]
  by_cases h0 : i = 0
  · subst h0
    rw [if_pos rfl, if_pos rfl, if_neg (by omega)]
    simp only [builtHeaderLength, Option.isSome_some, if_true]
    omega
  · rw [if_neg h0, if_neg h0]
    by_cases hl : i + 1 = sp.n
    · simp only [hl, builtHeaderLength, Option.isSome_none, if_true]
      simp
      omega
    · simp only [hl, builtHeaderLength, Option.isSome_none, if_false]
      simp
      omega

/-! Frames back to back. -/

/-- Where every frame but perhaps the last has m bytes, frame i starts at byte i * m. -/
theorem drop_flatten_of_length {frames : List Bytes} {m : Nat} (h : ∀ i, i + 1 < frames.length →
    (frames.getD i []).length = m) (i : Nat) (hi : i < frames.length) :
    frames.flatten.drop (i * m) = (frames.drop i).flatten := by
  induction frames generalizing i with
  | nil => simp at hi
  | cons f fs ih =>
    cases i with
    | zero => simp
    | succ i =>
      have hf : f.length = m := by
        have := h 0 (by simp only [List.length_cons] at hi ⊢; omega)
        simpa using this
      rw [List.flatten_cons, Nat.add_mul, Nat.one_mul, Nat.add_comm, ← hf, List.drop_append, hf,
        List.drop_of_length_le (by omega), List.nil_append, Nat.add_sub_cancel_left,
        ih (fun j hj => by
          have := h (j + 1) (by simp only [List.length_cons]; omega)
          simpa using this) i (by simpa using hi)]
      rfl

/-- Frame i, read back from the frames written back to back. -/
theorem slice_flatten_of_length {frames : List Bytes} {m : Nat} (h : ∀ i, i + 1 < frames.length →
    (frames.getD i []).length = m) {i : Nat} (hi : i < frames.length) :
    slice frames.flatten (i * m) (i * m + (frames[i]).length) = frames[i] := by
  rw [slice, drop_flatten_of_length h i hi, Nat.add_sub_cancel_left, List.drop_eq_getElem_cons hi,
    List.flatten_cons, List.take_left]

/-- The bytes of a set are as many as R199 counts. -/
theorem length_flatten_set (p : Config.Params) (a : FragArgs) {sp : Split} {pay : Bytes} {m : Nat}
    (h : sp.Fits pay.length m) :
    ((List.range sp.n).map (setFrameAt p a sp pay)).flatten.length = sp.totalSize m := by
  have hn := h.n_ge
  have hpre : ∀ k, k < sp.n → ((List.range k).map (setFrameAt p a sp pay)).flatten.length = k * m := by
    intro k
    induction k with
    | zero => intro _; simp
    | succ k ih =>
      intro hk
      rw [List.range_succ, List.map_append, List.flatten_append, List.length_append, ih (by omega)]
      simp only [List.map_cons, List.map_nil, List.flatten_cons, List.flatten_nil, List.append_nil]
      rw [length_setFrameAt p a h (by omega), if_neg (by omega), Nat.add_mul, Nat.one_mul]
  obtain ⟨x, hx⟩ : ∃ x, sp.n = x + 1 := ⟨sp.n - 1, by omega⟩
  rw [Split.totalSize, hx, List.range_succ, List.map_append, List.flatten_append, List.length_append,
    hpre x (by omega)]
  simp only [List.map_cons, List.map_nil, List.flatten_cons, List.flatten_nil, List.append_nil]
  rw [length_setFrameAt p a h (by omega), if_pos hx.symm, Nat.add_sub_cancel]
  omega

end Sys2Proof.Machine
end

