-- ==== Sys2Proof/Laws/Bus.lean ====
section
/-! SUPPORT. Everything a host write, a host read, a completion and a step can do, said once, so that later proofs go by
cases on these and unfold none of them. -/

namespace Sys2Proof.Machine

/-! Completions. -/

/-- A command's outcome stays inside the block's bounds: the output fits OUT_BUF and the result registers' invariants, a
named frame is a descriptor's index. -/
def OutcomeFits : Except Failure Success → Prop
  | .error e => ∀ k, e.frame = some k → k < block.maxFrames
  | .ok r => r.out.length ≤ block.outBufSize ∧ r.len ≤ 240305 ∧ r.nframes ≤ 21846

theorem length_packetBuffer (cid : Half) (pay : Bytes) : (packetBuffer cid pay).length = 4 + pay.length := by
  simp [packetBuffer]
  omega

/-- What the list checks can answer: the frames named are frame 0 only. -/
theorem listError_frame {s : State} {e : Failure} (h : listError block s.asmNframes.toNat (s.fetch block) = some e) :
    ∀ k, e.frame = some k → k < block.maxFrames := by
  have hz : (0 : Nat) < block.maxFrames := by decide
  unfold listError at h
  split at h
  · cases h; intro k hk; cases hk
  · split at h
    · cases h; intro k hk; cases hk
    · split at h
      · split at h
        · rename_i e' he'
          cases h
          unfold State.fetch at he'
          simp only at he'
          split at he'
          · cases he'; intro k hk; cases hk; exact hz
          · cases he'
        · split at h
          · cases h; intro k hk; cases hk; exact hz
          · split at h
            · cases h; intro k hk; cases hk; exact hz
            · cases h
      · cases h

theorem State.fetch_eq (s : State) (k : Nat) :
    s.fetch block k = .ok (s.frameBytes k) ∨ s.fetch block k = .error ⟨.capacity, some k⟩ := by
  by_cases h : s.frameInside k
  · exact .inl (State.fetch_of_inside h)
  · exact .inr (State.fetch_of_not_inside h)

theorem assembleOutcome_fits (s : State) : OutcomeFits (s.assembleOutcome block) := by
  unfold State.assembleOutcome assembleList
  cases hl : listError block s.asmNframes.toNat (s.fetch block) with
  | some e => exact listError_frame hl
  | none =>
    have hmax : s.asmNframes.toNat ≤ block.maxFrames := by
      unfold listError at hl
      split at hl
      · cases hl
      · split at hl
        · cases hl
        · omega
    have h0 : s.asmNframes.toNat ≠ 0 := by
      intro h
      rw [listError, if_pos h] at hl
      cases hl
    have hmax' : block.maxFrames = 1024 := rfl
    rcases assembleLoop_cases block s.asmNframes.toNat (s.fetch block) s.frameBytes s.asmNframes.toNat
        (fun k f hk => by rcases s.fetch_eq k with h | h <;> rw [h] at hk <;> cases hk; rfl) with
      ⟨hall, h⟩ | ⟨k, hk, e, _, he, h⟩ | ⟨k, hk, kind, _, _, _, h⟩
    · simp only [h]
      unfold assembleEnd
      split
      · intro k hk; cases hk
      · rename_i hne
        have hlen : (gathered s.asmNframes.toNat s.frameBytes s.asmNframes.toNat).length ≤ 65535 := by
          by_cases h1 : 1 < s.asmNframes.toNat
          · have : (gathered s.asmNframes.toNat s.frameBytes s.asmNframes.toNat).length =
                (localsAt s.asmNframes.toNat s.frameBytes s.asmNframes.toNat).total.toNat := by
              by_contra hc
              exact hne ⟨h1, hc⟩
            rw [this]
            omega
          · have h1' : s.asmNframes.toNat = 1 := by omega
            rw [h1']
            have hL := (hall 0 (by omega)).2.length
            unfold LengthOk at hL
            have h16 := (le16 (s.frameBytes 0) 0).isLt
            simp only [gathered, List.nil_append, length_slice, Nat.lt_irrefl, and_false, if_false]
            omega
        show (packetBuffer _ _).length ≤ _ ∧ _ ∧ _
        rw [length_packetBuffer]
        show 4 + (gathered _ _ _).length ≤ 262144 ∧ (gathered _ _ _).length ≤ 240305 ∧ s.asmNframes.toNat ≤ 21846
        omega
    · simp only [h]
      intro j hj
      rcases s.fetch_eq k with h' | h' <;> rw [h'] at he <;> cases he
      cases hj
      omega
    · simp only [h]
      intro j hj
      cases hj
      omega

theorem fragmentFrames_fits {a : FragArgs} {pay : Bytes} {m : Nat} {frames : List Bytes} (hpay : pay.length ≤ 65535)
    (h : fragmentFrames block a pay m = .ok frames) :
    frames.flatten.length ≤ 240305 ∧ frames.length ≤ 21846 := by
  unfold fragmentFrames at h
  split at h
  · cases h
  · split at h
    · cases h
      simp [length_build, builtHeaderLength]
    · split at h
      · cases h
        simp only [List.flatten_cons, List.flatten_nil, List.append_nil, length_build, builtHeaderLength,
          Option.isSome_none, List.length_cons, List.length_nil]
        simp
        omega
      · split at h
        · cases h
        · split at h
          · cases h
          · cases h
            have hfit := splitOf_fits (len := pay.length) (m := m) (by omega) (by omega)
            have hn := hfit.n_le hpay
            rw [fragmentLoop_eq, length_flatten_set block a hfit, hfit.totalSize_eq, List.length_map, List.length_range]
            omega

theorem fragmentOutcome_fits (s : State) : OutcomeFits (s.fragmentOutcome block) := by
  unfold State.fragmentOutcome
  split
  · intro k hk; cases hk
  · unfold fragmentPacket
    split
    · intro k hk; cases hk
    · split
      · intro k hk; cases hk
      · rename_i hlen hrec
        split
        · rename_i e he
          intro k hk
          unfold fragmentFrames at he
          split at he
          · cases he; cases hk
          · split at he
            · cases he
            · split at he
              · cases he
              · split at he
                · cases he; cases hk
                · split at he
                  · cases he; cases hk
                  · cases he
        · rename_i frames hf
          have h16 := (recordedLength (s.inBuf.readBytes 0 s.pktSize.toNat)).isLt
          have hb : block.outBufSize = 262144 := rfl
          have := fragmentFrames_fits (by rw [List.length_drop]; omega) hf
          exact ⟨by show frames.flatten.length ≤ _; omega, this.1, this.2⟩

/-- What a command leaves: every command word completes with an outcome inside the bounds (43_host_control.md R221). -/
theorem exec_decodeCommand (w : Word) (s : State) :
    ∃ r, OutcomeFits r ∧ exec (decodeCommand w) s = .next (s.complete r) := by
  unfold decodeCommand
  split
  · exact ⟨_, assembleOutcome_fits s, rfl⟩
  · split
    · exact ⟨_, fragmentOutcome_fits s, rfl⟩
    · exact ⟨.error ⟨.invalidCommand, none⟩, (fun k hk => nomatch hk), rfl⟩

/-! Host accesses. -/

/-- Everything a host write can do. -/
inductive WriteEffect (s : State) : State → Prop where
  | none : WriteEffect s s
  | drop : s.busy = true → WriteEffect s s.dropWrite
  | softReset : WriteEffect s s.softReset
  | setIe (ie : Bool) : WriteEffect s { s with ie := ie }
  | clear (d w : Bool) : s.busy = false → WriteEffect s { s with done := s.done && !d, werr := s.werr && !w }
  | accept (w : Word) : s.busy = false → WriteEffect s (s.accept w)
  | params (f m : BitVec 16) (sq ak : BitVec 8) (sz : BitVec 32) : s.busy = false →
      WriteEffect s { s with asmNframes := f, fragMtu := m, startSeq := sq, startAck := ak, pktSize := sz }
  | desc (a : Nat) (w : Word) (strb : BitVec 4) : s.busy = false →
      WriteEffect s { s with desc := s.desc.writeWord (descBytes block) a w strb }
  | inBuf (a : Nat) (w : Word) (strb : BitVec 4) : s.busy = false →
      WriteEffect s { s with inBuf := s.inBuf.writeWord block.inBufSize a w strb }
  | outBuf (a : Nat) (w : Word) (strb : BitVec 4) : s.busy = false →
      WriteEffect s { s with outBuf := s.outBuf.writeWord block.outBufSize a w strb }

/-- A CTRL word's instruction runs: a soft reset, or IE takes bit 0 (43_host_control.md R225). -/
theorem runAll_ctrl (w : Word) (s : State) :
    runAll (decode ⟨.ctrl, w⟩) s = .next (if w.getLsbD 1 then s.softReset else { s with ie := w.getLsbD 0 }) := by
  simp only [decode, decodeCtrl]
  split <;> rfl

/-- A STATUS word's instructions run while BUSY = 0: the flags whose bits are set are cleared
(43_host_control.md R226). -/
theorem runAll_status (w : Word) {s : State} (h : s.busy = false) :
    runAll (decode ⟨.status, w⟩) s =
      .next { s with done := s.done && !w.getLsbD 1, werr := s.werr && !w.getLsbD 2 } := by
  have hs : s = { s with busy := false } := by rw [← h]
  simp only [decode, decodeStatus]
  cases w.getLsbD 1 <;> cases w.getLsbD 2 <;>
    simp [runAll, exec, execClrDone, execClrWerr, h, State.clearDone, State.clearWerr]
  exact hs

theorem regWrite_effect (r : Reg) (w : Word) (strb : BitVec 4) {s : State} (h : s.busy = false ∨ r = .ctrl) :
    ∃ t, regWrite r w strb s = .next t ∧ WriteEffect s t := by
  by_cases hr : r = .ctrl
  · subst hr
    refine ⟨_, runAll_ctrl _ s, ?_⟩
    split
    · exact .softReset
    · exact .setIe _
  · have hb := h.resolve_right hr
    cases r with
    | ctrl => exact absurd rfl hr
    | status => exact ⟨_, runAll_status _ hb, .clear _ _ hb⟩
    | cmd => exact ⟨_, rfl, .accept _ hb⟩
    | asmNframes => exact ⟨_, rfl, .params _ s.fragMtu s.startSeq s.startAck s.pktSize hb⟩
    | fragMtu => exact ⟨_, rfl, .params s.asmNframes _ s.startSeq s.startAck s.pktSize hb⟩
    | fragSeqack => exact ⟨_, rfl, .params s.asmNframes s.fragMtu _ _ s.pktSize hb⟩
    | pktSize => exact ⟨_, rfl, .params s.asmNframes s.fragMtu s.startSeq s.startAck _ hb⟩
    | _ => exact ⟨_, rfl, .none⟩

theorem locWrite_effect (l : Loc) (w : Word) (strb : BitVec 4) {s : State}
    (h : ¬ (s.busy = true ∧ l.filtered = true)) : ∃ t, locWrite l w strb s = .next t ∧ WriteEffect s t := by
  have hb : l.filtered = true → s.busy = false := fun hl => by
    cases hs : s.busy
    · rfl
    · exact absurd ⟨hs, hl⟩ h
  cases l with
  | reg r =>
    apply regWrite_effect
    by_cases hr : r = .ctrl
    · exact .inr hr
    · exact .inl (hb (by cases r <;> first | rfl | exact absurd rfl hr))
  | desc a => exact ⟨_, rfl, .desc a w strb (hb rfl)⟩
  | inBuf a => exact ⟨_, rfl, .inBuf a w strb (hb rfl)⟩
  | outBuf a => exact ⟨_, rfl, .outBuf a w strb (hb rfl)⟩
  | reserved => exact ⟨_, rfl, .none⟩

/-- While the reset input is asserted a host write does nothing (70_reset_and_hazards.md R270). -/
theorem hostWrite_held (addr : Addr) (w : Word) (strb : BitVec 4) {s : State} (h : s.resetHeld = true) :
    hostWrite addr w strb s = .next s := by
  unfold hostWrite
  rw [if_pos h]

/-- A host write always answers a next state, and this is everything it can do. -/
theorem hostWrite_effect (addr : Addr) (w : Word) (strb : BitVec 4) {s : State} (h : s.resetHeld = false) :
    ∃ t, hostWrite addr w strb s = .next t ∧ WriteEffect s t := by
  unfold hostWrite
  simp only [h, Bool.false_eq_true, if_false]
  split
  · exact ⟨_, rfl, .drop (And.left ‹_›)⟩
  · exact locWrite_effect _ w strb ‹_›

/-- A host read moves nothing but the model's draw number, and that only while BUSY = 1 or the reset input is asserted
(20_memory.md R69, R71, 70_reset_and_hazards.md R270). -/
theorem hostRead_state (addr : Addr) (s : State) :
    (hostRead addr s).2 = s ∨
      (s.resetHeld = true ∨ s.busy = true) ∧ (hostRead addr s).2 = { s with draws := s.draws + 1 } := by
  unfold hostRead
  split
  · exact .inl rfl
  · split
    · exact .inr ⟨.inl ‹_›, rfl⟩
    · exact .inl rfl
  · split
    · exact .inr ⟨.inl ‹_›, rfl⟩
    · exact .inl rfl
  · split
    · exact .inr ⟨‹_›, rfl⟩
    · exact .inl rfl
  · exact .inl rfl

/-- Everything one host operation can do: a write's effect with the reset input released, or new replies, a draw, and a POLL
put back (a write with the reset input asserted does none of these). -/
theorem hostOp_effect (op : HostOp) (s : State) :
    ∃ t, hostOp op s = .next t ∧
      ((s.resetHeld = false ∧ WriteEffect s t) ∨ ∃ d rs ib, s.draws ≤ d ∧ t = { s with draws := d, replies := rs, inbox := ib }) := by
  cases op with
  | rd a =>
    refine ⟨_, rfl, .inr ?_⟩
    rcases hostRead_state a s with h | ⟨_, h⟩ <;> rw [h]
    · exact ⟨s.draws, _, s.inbox, Nat.le_refl _, rfl⟩
    · exact ⟨s.draws + 1, _, s.inbox, Nat.le_succ _, rfl⟩
  | wr a w strb =>
    rcases Bool.eq_false_or_eq_true s.resetHeld with hr | hr
    · exact ⟨s, hostWrite_held a w strb hr, .inr ⟨s.draws, s.replies, s.inbox, Nat.le_refl _, rfl⟩⟩
    · obtain ⟨t, h, e⟩ := hostWrite_effect a w strb hr
      exact ⟨t, h, .inl ⟨hr, e⟩⟩
  | poll a mask v =>
    refine ⟨_, rfl, .inr ?_⟩
    rcases hostRead_state a s with h | ⟨_, h⟩ <;> rw [h] <;> split
    · exact ⟨s.draws, _, s.inbox, Nat.le_refl _, rfl⟩
    · exact ⟨s.draws, _, .poll a mask v :: s.inbox, Nat.le_refl _, rfl⟩
    · exact ⟨s.draws + 1, _, s.inbox, Nat.le_succ _, rfl⟩
    · exact ⟨s.draws + 1, _, .poll a mask v :: s.inbox, Nat.le_succ _, rfl⟩

/-! A step. -/

/-- Everything a step can do: the engine completes the command in flight, the host's next operation acts, the reset input
acts, or nothing moves but the order of moves. -/
inductive StepEffect (s : State) : State → Prop where
  | complete (rest : List Turn) (r : Except Failure Success) : s.busy = true → OutcomeFits r →
      StepEffect s (State.complete { s with sched := rest } r)
  | write (rest : List Turn) (ops : List HostOp) (t : State) : s.resetHeld = false →
      WriteEffect { s with sched := rest, inbox := ops } t → StepEffect s t
  | read (rest : List Turn) (ops : List HostOp) (d : Nat) (rs : List Word) : s.draws ≤ d →
      StepEffect s { s with sched := rest, inbox := ops, draws := d, replies := rs }
  | hardReset (rest : List Turn) (asserted : Bool) : StepEffect s (State.hardReset asserted { s with sched := rest })
  | pass (rest : List Turn) : StepEffect s { s with sched := rest }

theorem hostTurn_effect (rest : List Turn) (s : State) :
    ∃ t, hostTurn { s with sched := rest } = .next t ∧ StepEffect s t := by
  unfold hostTurn
  simp only
  split
  · exact ⟨_, rfl, .pass rest⟩
  · rename_i op ops hi
    obtain ⟨t, h, e⟩ := hostOp_effect op { s with sched := rest, inbox := ops }
    refine ⟨t, h, ?_⟩
    rcases e with ⟨hr, e⟩ | ⟨d, rs, ib, hd, rfl⟩
    · exact .write rest ops t hr e
    · exact .read rest ib d rs hd

theorem engineTurn_effect (rest : List Turn) (s : State) :
    ∃ t, engineTurn { s with sched := rest } = .next t ∧ StepEffect s t := by
  unfold engineTurn
  simp only
  split
  · obtain ⟨r, hr, h⟩ := exec_decodeCommand s.latch { s with sched := rest }
    exact ⟨_, h, .complete rest r ‹_› hr⟩
  · exact ⟨_, rfl, .pass rest⟩

theorem resetTurn_effect (rest : List Turn) (asserted : Bool) (s : State) :
    ∃ t, resetTurn asserted { s with sched := rest } = .next t ∧ StepEffect s t := by
  refine ⟨_, rfl, ?_⟩
  split
  · exact .hardReset rest asserted
  · exact .pass rest

/-- Every step answers a next state, and this is everything it can do. -/
theorem step_effect (s : State) : ∃ t, step s = .next t ∧ StepEffect s t := by
  unfold step
  split
  · rename_i hs
    have hs' : { s with sched := [] } = s := by rw [← hs]
    split
    · have := engineTurn_effect [] s
      rwa [hs'] at this
    · have := hostTurn_effect [] s
      rwa [hs'] at this
  · exact engineTurn_effect _ s
  · exact hostTurn_effect _ s
  · exact resetTurn_effect _ _ s

end Sys2Proof.Machine
end

