-- ==== Sys2Proof/Laws/Decode.lean ====
section
/-! SUPPORT. The two fields of a command word put together and taken apart (30_encoding.md R90). -/

namespace Sys2Proof

theorem rsvField_append (rsv : BitVec 28) (opc : BitVec 4) : rsvField (rsv ++ opc) = rsv := by
  apply BitVec.eq_of_getLsbD_eq
  intro i hi
  rw [rsvField, BitVec.getLsbD_extractLsb', BitVec.getLsbD_append]
  simp [hi]

theorem opcField_append (rsv : BitVec 28) (opc : BitVec 4) : opcField (rsv ++ opc) = opc := by
  apply BitVec.eq_of_getLsbD_eq
  intro i hi
  rw [opcField, BitVec.getLsbD_extractLsb', BitVec.getLsbD_append]
  simp [hi]

theorem append_fields (w : Word) : rsvField w ++ opcField w = w := by
  apply BitVec.eq_of_getLsbD_eq
  intro i hi
  rw [BitVec.getLsbD_append, rsvField, opcField, BitVec.getLsbD_extractLsb', BitVec.getLsbD_extractLsb']
  by_cases h : i < 4
  · simp [h]
  · rw [if_neg h, show 4 + (i - 4) = i by omega, decide_eq_true (by omega : i - 4 < 28), Bool.true_and]

/-- A command word is decided by its two fields. -/
theorem append_eq_iff (rsv : BitVec 28) (opc : BitVec 4) (w : Word) :
    rsv ++ opc = w ↔ rsv = rsvField w ∧ opc = opcField w := by
  constructor
  · rintro rfl
    exact ⟨(rsvField_append rsv opc).symm, (opcField_append rsv opc).symm⟩
  · rintro ⟨rfl, rfl⟩
    exact append_fields w

end Sys2Proof
end

