-- ==== Sys2Proof/Laws/Lanes.lean ====
section
/-! SUPPORT. Byte lanes of strobed words, bit by bit and lane by lane, and where block addresses lead
(20_memory.md R61 to R66). -/

namespace Sys2Proof.Machine

theorem lane_wordOfLanes (b0 b1 b2 b3 : Byte) (i : Nat) (h : i < 4) :
    lane (wordOfLanes b0 b1 b2 b3) i = [b0, b1, b2, b3].getD i 0 := by
  apply BitVec.eq_of_getLsbD_eq
  intro j hj
  rw [lane, BitVec.getLsbD_extractLsb', wordOfLanes]
  simp only [BitVec.getLsbD_append, hj, decide_true, Bool.true_and]
  interval_cases i
  · simp [hj]
  · rw [if_neg (by omega), if_pos (by omega)]
    simp
  · rw [if_neg (by omega), if_neg (by omega), if_pos (by omega)]
    simp
    congr 1
    omega
  · rw [if_neg (by omega), if_neg (by omega), if_neg (by omega)]
    simp
    congr 1
    omega

/-- A strobed word lane by lane: the written lane where the strobe is 1, else the current one (20_memory.md R66). -/
theorem lane_mergeLanes (cur w : Word) (strb : BitVec 4) (i : Nat) (h : i < 4) :
    lane (mergeLanes cur w strb) i = if strb.getLsbD i then lane w i else lane cur i := by
  rw [mergeLanes, lane_wordOfLanes _ _ _ _ _ h]
  interval_cases i <;> rfl

theorem getLsbD_eq_lane (w : Word) (i : Nat) : w.getLsbD i = (lane w (i / 8)).getLsbD (i % 8) := by
  rw [lane, BitVec.getLsbD_extractLsb', decide_eq_true (Nat.mod_lt _ (by decide)), Bool.true_and,
    Nat.div_add_mod]

/-- A strobed word bit by bit. -/
theorem getLsbD_mergeLanes (cur w : Word) (strb : BitVec 4) (i : Nat) (h : i < 32) :
    (mergeLanes cur w strb).getLsbD i = if strb.getLsbD (i / 8) then w.getLsbD i else cur.getLsbD i := by
  rw [getLsbD_eq_lane, lane_mergeLanes _ _ _ _ (by omega), getLsbD_eq_lane w, getLsbD_eq_lane cur]
  split <;> rfl

theorem getLsbD_flagBit (b : Bool) (i j : Nat) (hj : j < 32) : (flagBit b i).getLsbD j = (b && decide (i = j)) := by
  unfold flagBit
  cases b
  · simp
  · rw [if_pos rfl, BitVec.getLsbD_twoPow, Bool.true_and]
    by_cases h : i = j
    · rw [decide_eq_true (h ▸ hj), Bool.true_and]
    · simp [h]

/-- The register a word address below 0x3C names, and no other. -/
theorem locate_reg {addr : Addr} {r : Reg} (h : Reg.ofOffset (wordAddr addr) = some r) : locate block addr = .reg r := by
  have hlt : wordAddr addr < 0x100 := by
    unfold Reg.ofOffset at h
    split at h <;> first | omega | cases h
  simp only [locate, if_pos hlt, h]

theorem regOffset_eq_none {a : Nat} (h : 0x3C ≤ a) : Reg.ofOffset a = none := by
  unfold Reg.ofOffset
  split <;> first | omega | rfl

/-- The reserved addresses, and only they, lead nowhere. -/
theorem locate_reserved_iff (addr : Addr) : locate block addr = .reserved ↔ ReservedWord (wordAddr addr) := by
  have hd : descBytes block = 0x2000 := rfl
  have hi : block.inBufSize = 0x20000 := rfl
  have ho : block.outBufSize = 0x40000 := rfl
  have h4 : wordAddr addr % 4 = 0 := by simp [wordAddr]
  simp only [locate, hd, hi, ho]
  generalize wordAddr addr = a at *
  unfold ReservedWord
  split
  · rename_i hlt
    constructor
    · intro h
      split at h
      · cases h
      · rename_i hr
        left
        refine ⟨?_, by omega⟩
        by_contra hc
        have : a = 0x00 ∨ a = 0x04 ∨ a = 0x08 ∨ a = 0x0C ∨ a = 0x10 ∨ a = 0x14 ∨ a = 0x18 ∨ a = 0x1C ∨ a = 0x20 ∨
            a = 0x24 ∨ a = 0x28 ∨ a = 0x2C ∨ a = 0x30 ∨ a = 0x34 ∨ a = 0x38 := by omega
        rcases this with rfl | rfl | rfl | rfl | rfl | rfl | rfl | rfl | rfl | rfl | rfl | rfl | rfl | rfl | rfl <;> cases hr
    · intro h
      rw [regOffset_eq_none (by omega)]
  · split
    · exact ⟨(nomatch ·), fun h => by omega⟩
    · split
      · exact ⟨(nomatch ·), fun h => by omega⟩
      · split
        · exact ⟨(nomatch ·), fun h => by omega⟩
        · exact ⟨fun _ => by omega, fun _ => rfl⟩

theorem locate_desc {addr : Addr} (h : 0x010000 ≤ wordAddr addr ∧ wordAddr addr < 0x012000) :
    locate block addr = .desc (wordAddr addr - 0x010000) := by
  have hd : descBytes block = 0x2000 := rfl
  simp only [locate, hd]
  rw [if_neg (by omega), if_pos (by omega)]

theorem locate_inBuf {addr : Addr} (h : 0x100000 ≤ wordAddr addr ∧ wordAddr addr < 0x120000) :
    locate block addr = .inBuf (wordAddr addr - 0x100000) := by
  have hd : descBytes block = 0x2000 := rfl
  have hi : block.inBufSize = 0x20000 := rfl
  simp only [locate, hd, hi]
  rw [if_neg (by omega), if_neg (by omega), if_pos (by omega)]

theorem locate_outBuf {addr : Addr} (h : 0x200000 ≤ wordAddr addr ∧ wordAddr addr < 0x240000) :
    locate block addr = .outBuf (wordAddr addr - 0x200000) := by
  have hd : descBytes block = 0x2000 := rfl
  have hi : block.inBufSize = 0x20000 := rfl
  have ho : block.outBufSize = 0x40000 := rfl
  simp only [locate, hd, hi, ho]
  rw [if_neg (by omega), if_neg (by omega), if_neg (by omega), if_pos (by omega)]

/-- The host's move, the operation being the next in its list. -/
theorem step_of_hostMoves {op : HostOp} {s s' : State} (h : HostMoves op s s') : step s = hostOp op s' := by
  obtain ⟨turns, ops, hs, hi, rfl⟩ := h
  unfold step
  rcases hs with hs | ⟨hs, rfl, hb⟩
  · simp only [hs]
    simp only [hostTurn, hi]
  · simp only [hs, hb, hostTurn, hi]
    rfl

/-- The host's move with the reset input released. -/
theorem step_of_arrives {op : HostOp} {s s' : State} (h : Arrives op s s') :
    step s = hostOp op s' ∧ s'.resetHeld = false := by
  obtain ⟨hm, hr⟩ := h
  refine ⟨step_of_hostMoves hm, ?_⟩
  obtain ⟨turns, ops, _, _, rfl⟩ := hm
  exact hr

/-- The engine's move. -/
theorem step_of_engineMoves {s s' : State} (h : EngineMoves s s') : step s = engineTurn s' := by
  obtain ⟨turns, hs, rfl⟩ := h
  unfold step
  rcases hs with hs | ⟨hs, rfl, hb⟩
  · simp only [hs]
  · have he : { s with sched := [] } = s := by rw [← hs]
    rw [he]
    simp only [hs]
    rw [if_pos hb]

/-- A host write that the filter lets through (43_host_control.md R224). -/
theorem hostWrite_performed {addr : Addr} {l : Loc} (w : Word) (strb : BitVec 4) {s : State} (hl : locate block addr = l)
    (hr : s.resetHeld = false) (h : s.busy = false ∨ l.filtered = false) :
    hostWrite addr w strb s = locWrite l w strb s := by
  unfold hostWrite
  simp only [hl, hr, Bool.false_eq_true, if_false]
  rw [if_neg]
  rintro ⟨h1, h2⟩
  rcases h with h | h <;> simp_all

/-- Every address but CTRL's and the reserved ones is filtered. -/
theorem filtered_of {addr : Addr} (hc : wordAddr addr ≠ 0x04) (hr : ¬ ReservedWord (wordAddr addr)) :
    (locate block addr).filtered = true := by
  have hres : locate block addr ≠ .reserved := fun h => hr ((locate_reserved_iff addr).1 h)
  have hctrl : locate block addr ≠ .reg .ctrl := by
    intro hl
    simp only [locate] at hl
    split at hl
    · split at hl
      · rename_i r hr'
        cases hl
        unfold Reg.ofOffset at hr'
        split at hr' <;> first | exact hc ‹_› | cases hr'
      · cases hl
    · split at hl
      · cases hl
      · split at hl
        · cases hl
        · split at hl <;> cases hl
  cases hl : locate block addr with
  | reserved => exact absurd hl hres
  | reg r =>
    cases r with
    | ctrl => exact absurd hl hctrl
    | _ => rfl
  | _ => rfl

/-- A filtered host write while BUSY = 1 is dropped (43_host_control.md R224). -/
theorem hostWrite_dropped {addr : Addr} (w : Word) (strb : BitVec 4) {s : State} (hheld : s.resetHeld = false)
    (hb : s.busy = true) (hc : wordAddr addr ≠ 0x04) (hr : ¬ ReservedWord (wordAddr addr)) :
    hostWrite addr w strb s = .next s.dropWrite := by
  unfold hostWrite
  simp only [hheld, Bool.false_eq_true, if_false]
  rw [if_pos ⟨hb, filtered_of hc hr⟩]

end Sys2Proof.Machine
end

