-- ==== Sys2Proof/Laws/PerInstr.lean ====
section
/-! SUPPORT. The per-instruction family: an instruction's encoded word has the fixed bits of its row of
spec/opcode_table.json. -/

namespace Sys2Proof.Laws

/-- The word of the instruction fits the match and mask columns of its row. -/
def EncodesItsRow.Statement (i : Instr) : Prop :=
  i.wellFormed = true → (encode i).data &&& i.tableMatch.2 = i.tableMatch.1

theorem EncodesItsRow.assemble : EncodesItsRow.Statement .assemble := fun _ => by decide

theorem EncodesItsRow.fragment : EncodesItsRow.Statement .fragment := fun _ => by decide

theorem EncodesItsRow.invalid (rsv : BitVec 28) (opc : BitVec 4) : EncodesItsRow.Statement (.invalid rsv opc) :=
  fun _ => BitVec.and_zero

theorem EncodesItsRow.softReset : EncodesItsRow.Statement .softReset := fun _ => by decide

theorem EncodesItsRow.setIe (ie : Bool) : EncodesItsRow.Statement (.setIe ie) := fun _ => by
  cases ie <;> decide

theorem EncodesItsRow.clrDone : EncodesItsRow.Statement .clrDone := fun _ => by decide

theorem EncodesItsRow.clrWerr : EncodesItsRow.Statement .clrWerr := fun _ => by decide

end Sys2Proof.Laws
end

