-- ==== Sys2Proof/Tests/Slice0.lean ====
section
/-! SUPPORT. The model's own tests: the well-formedness smoke, words written out from 30_encoding.md, one-step tests whose
expected values are those of 95_test_vectors.md, and for every statement with hypotheses a concrete state that meets them. -/

namespace Sys2Proof.Tests

open Sys2Proof Sys2Proof.Machine

/-! Small states. -/

/-- The state a step answers. -/
def after (o : Host.Outcome State Fault Refusal) : State :=
  match o with
  | .next t => t
  | .fault _ => State.reset
  | .refused _ => State.reset

/-- One frame at a byte offset of IN_BUF, with descriptor k. -/
def placeFrame (s : State) (k off : Nat) (f : Bytes) : State :=
  { s with
    inBuf := s.inBuf.writeBytes off f
    desc := (s.desc.writeWord (descBytes block) (8 * k) (BitVec.ofNat 32 off) 0xF).writeWord (descBytes block) (8 * k + 4)
      (BitVec.ofNat 32 f.length) 0xF }

/-- Frames one after another in IN_BUF, with their descriptors. -/
def placeFrames (s : State) : Nat → Nat → List Bytes → State
  | _, _, [] => s
  | k, off, f :: fs => placeFrames (placeFrame s k off f) (k + 1) (off + f.length) fs

/-- ASSEMBLE of these frames in flight. -/
def asmState (fs : List Bytes) : State :=
  { placeFrames State.reset 0 0 fs with asmNframes := BitVec.ofNat 16 fs.length, latch := 1, busy := true }

/-- ASSEMBLE in flight with a frame count and one descriptor. -/
def descState (nf : BitVec 16) (off len : Word) : State :=
  { State.reset with
    asmNframes := nf
    latch := 1
    busy := true
    desc := (State.reset.desc.writeWord (descBytes block) 0 off 0xF).writeWord (descBytes block) 4 len 0xF }

/-- FRAGMENT of a packet buffer in flight. -/
def fragState (pk : Bytes) (size : Word) (m : Half) (seq ack : Byte) : State :=
  { State.reset with
    inBuf := State.reset.inBuf.writeBytes 0 pk
    pktSize := size
    fragMtu := m
    startSeq := seq
    startAck := ack
    latch := 2
    busy := true }

/-- The block without and with a command in flight. -/
def idle (busy : Bool) : State := { State.reset with busy := busy }

/-- The same with one host operation the next to arrive. -/
def arriving (busy : Bool) (op : HostOp) : State := { idle busy with inbox := [op], sched := [.host] }

theorem test_arrives (busy : Bool) (op : HostOp) : Arrives op (arriving busy op) (idle busy) :=
  ⟨⟨[], [], .inl rfl, rfl, rfl⟩, rfl⟩

/-- The same with the reset input asserted. -/
theorem test_moves_in_reset (op : HostOp) :
    HostMoves op { arriving false op with resetHeld := true } { State.reset with resetHeld := true } :=
  ⟨[], [], .inl rfl, rfl, rfl⟩

/-- The host's access also arrives when no order is left and no command is in flight. -/
theorem test_arrives_in_default_order (op : HostOp) :
    Arrives op { State.reset with inbox := [op] } State.reset :=
  ⟨⟨[], [], .inr ⟨rfl, rfl, rfl⟩, rfl, rfl⟩, rfl⟩

/-! The frames of 95_test_vectors.md. -/

/-- A1. -/
def frameA1 : Bytes := [0x06, 0x00, 0x48, 0x00, 0x04, 0x00, 0xAB, 0xCD, 0x30, 0x37]

/-- A2, the smallest frame. -/
def frameA2 : Bytes := [0x04, 0x00, 0x41, 0x00, 0x10, 0x27, 0x58, 0x62]

/-- Frame 0 of A3: SAR start, total length 12. -/
def frameA3 : Bytes := [0x08, 0x00, 0x40, 0x00, 0x3C, 0x45, 0x0C, 0x00, 0x01, 0x02, 0xCE, 0x28]

/-- A19: two frames whose sequence bytes wrap from 63 to 1. -/
def framesA19 : List Bytes :=
  [[0x09, 0x00, 0x40, 0x00, 0x3F, 0x40, 0x03, 0x00, 0x01, 0x02, 0x03, 0x8A, 0x3D],
    [0x04, 0x00, 0x40, 0x00, 0x01, 0x80, 0x14, 0x74]]

/-- A28: two frames whose payloads do not add up to the total length. -/
def framesA28 : List Bytes :=
  [[0x07, 0x00, 0x40, 0x00, 0x00, 0x40, 0x03, 0x00, 0x01, 0x43, 0xF4],
    [0x05, 0x00, 0x40, 0x00, 0x02, 0x80, 0x02, 0x15, 0x0E]]

/-- F9's packet: four payload bytes. -/
def packetF9 : Bytes := [0x04, 0x00, 0x40, 0x00, 0x01, 0x02, 0x03, 0x04]

/-- F9's two frames. -/
def framesF9 : List Bytes :=
  [[0x07, 0x00, 0x40, 0x00, 0x10, 0x7F, 0x04, 0x00, 0x01, 0x3F, 0xE2],
    [0x07, 0x00, 0x40, 0x00, 0x12, 0xBF, 0x02, 0x03, 0x04, 0x5A, 0xD0]]

/-! Well-formedness (30_encoding.md R92). -/

theorem test_wellFormed_refuses_assemble_as_invalid : (Instr.invalid 0 1).wellFormed = false := by decide

theorem test_wellFormed_refuses_fragment_as_invalid : (Instr.invalid 0 2).wellFormed = false := by decide

theorem test_wellFormed_accepts : (Instr.invalid 0 0).wellFormed = true ∧ (Instr.invalid 0 3).wellFormed = true ∧
    (Instr.invalid 1 1).wellFormed = true ∧ (Instr.invalid 0xFFFFFFF 2).wellFormed = true := by decide

/-- This block's parameters meet the constraints of 00_scope.md R9. -/
theorem test_block_is_a_configuration : block.Valid := by
  constructor <;> decide

/-! Words written out from the encoding (30_encoding.md R91 to R93). -/

theorem test_decode_assemble : decodeCommand 0b00000000000000000000000000000001#32 = .assemble := by decide

theorem test_decode_fragment : decodeCommand 0b00000000000000000000000000000010#32 = .fragment := by decide

theorem test_decode_invalid :
    decodeCommand 0b10000000000000000000000000000001#32 = .invalid 0b1000000000000000000000000000#28 0b0001#4 := by decide

theorem test_decode_softReset : decodeCtrl 0b00000000000000000000000000000010#32 = .softReset := by decide

theorem test_decode_setIe : decodeCtrl 0b11111111111111111111111111111101#32 = .setIe true ∧
    decodeCtrl 0b11111111111111111111111111111100#32 = .setIe false := by decide

theorem test_decode_clrDone : decodeStatus 0b11111111111111111111111111111011#32 = [.clrDone] := by decide

theorem test_decode_clrWerr : decodeStatus 0b00000000000000000000000000000100#32 = [.clrWerr] := by decide

/-- A register whose writes are no instruction is rejected by name. -/
theorem test_decode_other_register : decodeWrite 0x14 1 = .error (.notAnActionRegister 0x14) := by rfl

theorem test_decodeTableWord : decodeTableWord 32 1 = some .assemble ∧ decodeTableWord 32 2 = some .fragment ∧
    decodeTableWord 32 0x11 = some (.invalid 1 1) := by decide

/-! One step each (95_test_vectors.md). -/

/-- A1: ERR, RES_CID, RES_LEN, RES_NFRAMES and OUT_BUF[0..6). -/
theorem test_assemble_A1 :
    let t := after (exec .assemble (asmState [frameA1]))
    t.errWord = 0 ∧ t.resCid = 0x48 ∧ t.resLen = 2 ∧ t.resNframes = 1 ∧
      t.outBuf.readBytes 0 6 = [0x02, 0x00, 0x48, 0x00, 0xAB, 0xCD] := by decide +kernel

/-- A28: the total-length check. -/
theorem test_assemble_A28 : (after (exec .assemble (asmState framesA28))).errWord = 0xFFFF0007 := by decide +kernel

/-- F9: the frames, with the sequence byte of frame 0 reduced modulo 64. -/
theorem test_fragment_F9 :
    let t := after (exec .fragment (fragState packetF9 8 11 80 63))
    t.errWord = 0 ∧ t.resLen = 22 ∧ t.resNframes = 2 ∧ t.outBuf.readBytes 0 22 = framesF9.flatten := by decide +kernel

/-- F13: an MTU of 7. -/
theorem test_fragment_F13 : (after (exec .fragment (fragState [0x00, 0x00, 0x41, 0x00] 4 7 0 0))).errWord = 0xFFFF0008 := by
  decide +kernel

/-- H6: command word 0. -/
theorem test_invalid_H6 : (after (exec (.invalid 0 0) (idle true))).errWord = 0xFFFF0009 := by decide

/-- H15: CTRL write of 3 with a command in flight. -/
theorem test_softReset_H15 :
    let t := after (step { arriving true (.wr 0x04 3 0xF) with ie := true, asmNframes := 1 })
    t.statusWord = 0 ∧ t.ctrlWord = 0 ∧ t.asmNframes = 0 := by decide +kernel

theorem test_setIe : (after (step (arriving true (.wr 0x04 1 0xF)))).ctrlWord = 1 := by decide +kernel

/-- 43_host_control.md R226's example. -/
theorem test_clrDone : (after (exec .clrDone { State.reset with done := true, werr := true })).statusWord = 4 := by decide

/-- 43_host_control.md R224: a W1C write while BUSY = 1 is dropped and sets WERR. -/
theorem test_clrDone_busy : (after (exec .clrDone (idle true))).statusWord = 5 := by decide

theorem test_clrWerr : (after (exec .clrWerr { State.reset with done := true, werr := true })).statusWord = 2 := by decide

theorem test_clrWerr_busy : (after (exec .clrWerr { idle true with werr := true })).statusWord = 5 := by decide

/-- H2: what is stored of a FRAG_SEQACK write. -/
theorem test_write_fragSeqack : (after (step (arriving false (.wr 0x1C 0xFFFF3C05 0xF)))).seqackWord = 0x00003C05 := by
  decide +kernel

/-- 70_reset_and_hazards.md R270: a CMD write while the reset input is asserted starts no command. -/
theorem test_write_cmd_in_reset :
    (after (step { arriving false (.wr 0x0C 1 0xF) with resetHeld := true })).statusWord = 0 := by decide +kernel

/-- H1: reset reads. -/
theorem test_read_id : (after (step (arriving false (.rd 0x00)))).replies = [0x53415201] := by decide +kernel

/-- H9: the dropped buffer write, then STATUS reads 5. -/
theorem test_write_inBuf_busy : (after (step (arriving true (.wr 0x100000 0x12345678 0xF)))).statusWord = 5 := by
  decide +kernel

/-! Every statement with hypotheses holds of something: one theorem each, named after the statement, gives states and operands
that meet its hypotheses together, one for each of its clauses, at the ends of ranges. -/

theorem test_witness_EncodedInstructionDecodesBack :
    (∀ i ∈ [Instr.assemble, .fragment, .invalid 0 0, .invalid 0 3, .invalid 0xFFFFFFF 0xF, .softReset, .setIe true, .setIe false,
      .clrDone, .clrWerr], i.wellFormed = true) := by decide +kernel

/-- The engine's move given, and by default; with and without a command in flight. -/
theorem test_witness_EngineMoveRunsTheDecodedLatch :
    EngineMoves { idle true with sched := [.engine] } (idle true) ∧ EngineMoves (idle true) (idle true) ∧
    (idle true).busy = true ∧ EngineMoves { idle false with sched := [.engine] } (idle false) ∧ (idle false).busy = false :=
  ⟨⟨[], .inl rfl, rfl⟩, ⟨[], .inr ⟨rfl, rfl, rfl⟩, rfl⟩, rfl, ⟨[], .inl rfl, rfl⟩, rfl⟩

theorem test_witness_CtrlWriteActsAtAnyTime :
    (Arrives (.wr 0x04 3 1) (arriving true (.wr 0x04 3 1)) (idle true) ∧ wordAddr 0x04 = 0x04 ∧
      (1#4).getLsbD 0 = true ∧ (3#32).getLsbD 1 = true) ∧
    (Arrives (.wr 0x07 1 0xF) (arriving false (.wr 0x07 1 0xF)) (idle false) ∧ wordAddr 0x07 = 0x04 ∧
      (0xF#4).getLsbD 0 = true ∧ (1#32).getLsbD 1 = false) ∧
    (Arrives (.wr 0x04 3 0xE) (arriving true (.wr 0x04 3 0xE)) (idle true) ∧ wordAddr 0x04 = 0x04 ∧
      (0xE#4).getLsbD 0 = false) :=
  ⟨⟨test_arrives _ _, by decide⟩, ⟨test_arrives _ _, by decide⟩, ⟨test_arrives _ _, by decide⟩⟩

theorem test_witness_StatusWriteClearsTheNamedFlags :
    Arrives (.wr 0x08 2 1) (arriving false (.wr 0x08 2 1)) (idle false) ∧ wordAddr 0x08 = 0x08 ∧
      (arriving false (.wr 0x08 2 1)).busy = false ∧ (1#4).getLsbD 0 = true ∧ (2#32).getLsbD 1 = true :=
  ⟨test_arrives _ _, by decide⟩

theorem test_witness_CommandWriteIsAccepted :
    (Arrives (.wr 0x0C 1 0xF) (arriving false (.wr 0x0C 1 0xF)) (idle false) ∧ wordAddr 0x0C = 0x0C ∧
      (arriving false (.wr 0x0C 1 0xF)).busy = false) ∧
    (Arrives (.wr 0x0F 0 0) (arriving true (.wr 0x0F 0 0)) (idle true) ∧ wordAddr 0x0F = 0x0C ∧
      (arriving true (.wr 0x0F 0 0)).busy = true) :=
  ⟨⟨test_arrives _ _, by decide⟩, ⟨test_arrives _ _, by decide⟩⟩

/-- The ends of every reserved range, and of the ranges between them. -/
theorem test_witness_WritesWhileBusyAreDropped :
    (∀ a ∈ ([0x3C, 0xFFFF, 0x012000, 0x0FFFFF, 0x120000, 0x1FFFFF, 0x240000, 0x3FFFFF] : List Addr),
      Arrives (.wr a 1 0xF) (arriving true (.wr a 1 0xF)) (idle true) ∧ (arriving true (.wr a 1 0xF)).busy = true ∧
      wordAddr a ≠ 0x04 ∧ ReservedWord (wordAddr a)) ∧
    (∀ a ∈ ([0x00, 0x08, 0x3B, 0x010000, 0x011FFF, 0x100000, 0x11FFFF, 0x200000, 0x23FFFF] : List Addr),
      Arrives (.wr a 1 0xF) (arriving true (.wr a 1 0xF)) (idle true) ∧ (arriving true (.wr a 1 0xF)).busy = true ∧
      wordAddr a ≠ 0x04 ∧ ¬ ReservedWord (wordAddr a)) := by
  refine ⟨fun a ha => ⟨test_arrives _ _, rfl, ?_⟩, fun a ha => ⟨test_arrives _ _, rfl, ?_⟩⟩ <;> revert a <;> unfold ReservedWord <;>
    simp only [List.forall_mem_cons, List.not_mem_nil, false_imp_iff, implies_true] <;> and_intros <;> decide

theorem test_witness_ReservedAddressesReadZeroAndIgnoreWrites :
    ∀ a ∈ ([0x3C, 0xFFFF, 0x012000, 0x0FFFFF, 0x120000, 0x1FFFFF, 0x240000, 0x3FFFFF] : List Addr),
      ReservedWord (wordAddr a) ∧ HostMoves (.rd a) (arriving false (.rd a)) (idle false) ∧
      HostMoves (.wr a 5 0xF) (arriving true (.wr a 5 0xF)) (idle true) := by
  refine fun a ha => ⟨?_, (test_arrives _ _).1, (test_arrives _ _).1⟩
  revert a
  unfold ReservedWord
  simp only [List.forall_mem_cons, List.not_mem_nil, false_imp_iff, implies_true]
  and_intros <;> decide

theorem test_witness_ParameterWriteStoresItsEnabledLanes :
    ∀ x ∈ ([(0x14, 0x14), (0x1B, 0x18), (0x1C, 0x1C), (0x23, 0x20)] : List (Addr × Nat)),
      Arrives (.wr x.1 0x12345678 5) (arriving false (.wr x.1 0x12345678 5)) (idle false) ∧
      (arriving false (.wr x.1 0x12345678 5)).busy = false ∧ wordAddr x.1 = x.2 := by
  refine fun x hx => ⟨test_arrives _ _, rfl, ?_⟩
  revert x
  decide +kernel

theorem test_witness_ReadOnlyRegistersIgnoreWrites :
    ∀ a ∈ ([0x00, 0x10, 0x24, 0x38] : List Addr),
      Arrives (.wr a 1 0xF) (arriving false (.wr a 1 0xF)) (idle false) ∧ (arriving false (.wr a 1 0xF)).busy = false ∧
      (wordAddr a = 0x00 ∨ wordAddr a = 0x10 ∨ (0x24 ≤ wordAddr a ∧ wordAddr a ≤ 0x38)) := by
  refine fun a ha => ⟨test_arrives _ _, rfl, ?_⟩
  revert a
  simp only [List.forall_mem_cons, List.not_mem_nil, false_imp_iff, implies_true]
  and_intros <;> decide

theorem test_witness_RegisterReadsReturnTheirFields :
    ∀ x ∈ ([(0x00, 0x00), (0x04, 0x04), (0x08, 0x08), (0x0C, 0x0C), (0x10, 0x10), (0x14, 0x14), (0x18, 0x18), (0x1C, 0x1C),
        (0x20, 0x20), (0x24, 0x24), (0x28, 0x28), (0x2C, 0x2C), (0x30, 0x30), (0x34, 0x34), (0x3B, 0x38)] : List (Addr × Nat)),
      HostMoves (.rd x.1) (arriving true (.rd x.1)) (idle true) ∧ wordAddr x.1 < 0x3C ∧ wordAddr x.1 = x.2 := by
  refine fun x hx => ⟨(test_arrives _ _).1, ?_⟩
  revert x
  decide +kernel

theorem test_witness_HostReadHasNoSideEffect :
    HostMoves (.rd 0x200000) (arriving true (.rd 0x200000)) (idle true) ∧
    HostMoves (.poll 0x08 2 2) (arriving true (.poll 0x08 2 2)) (idle true) :=
  ⟨(test_arrives _ _).1, (test_arrives _ _).1⟩

theorem test_witness_OutBufReadWhileBusyIsFree :
    ∀ a ∈ ([0x200000, 0x23FFFF] : List Addr), Arrives (.rd a) (arriving true (.rd a)) (idle true) ∧
      (arriving true (.rd a)).busy = true ∧ 0x200000 ≤ wordAddr a ∧ wordAddr a < 0x240000 := by
  refine fun a ha => ⟨test_arrives _ _, rfl, ?_⟩
  revert a
  simp only [List.forall_mem_cons, List.not_mem_nil, false_imp_iff, implies_true]
  and_intros <;> decide

theorem test_witness_BufferReadReturnsItsFourBytes :
    (∀ a ∈ ([0x010000, 0x011FFF] : List Addr), Arrives (.rd a) (arriving true (.rd a)) (idle true) ∧
      0x010000 ≤ wordAddr a ∧ wordAddr a < 0x012000) ∧
    (∀ a ∈ ([0x100000, 0x11FFFF] : List Addr), Arrives (.rd a) (arriving true (.rd a)) (idle true) ∧
      0x100000 ≤ wordAddr a ∧ wordAddr a < 0x120000) ∧
    (∀ a ∈ ([0x200000, 0x23FFFF] : List Addr), Arrives (.rd a) (arriving false (.rd a)) (idle false) ∧
      0x200000 ≤ wordAddr a ∧ wordAddr a < 0x240000 ∧ (arriving false (.rd a)).busy = false) := by
  refine ⟨fun a ha => ⟨test_arrives _ _, ?_⟩, fun a ha => ⟨test_arrives _ _, ?_⟩, fun a ha => ⟨test_arrives _ _, ?_⟩⟩ <;>
    revert a <;> simp only [List.forall_mem_cons, List.not_mem_nil, false_imp_iff, implies_true] <;>
    and_intros <;> decide

theorem test_witness_BufferWriteChangesOnlyItsEnabledLanes :
    ∀ x ∈ ([(0x010000, 0x010000, 0x012000), (0x011FFF, 0x010000, 0x012000), (0x100000, 0x100000, 0x120000),
        (0x11FFFF, 0x100000, 0x120000), (0x200000, 0x200000, 0x240000), (0x23FFFF, 0x200000, 0x240000)] :
        List (Addr × Nat × Nat)),
      Arrives (.wr x.1 7 9) (arriving false (.wr x.1 7 9)) (idle false) ∧ (arriving false (.wr x.1 7 9)).busy = false ∧
      x.2.1 ≤ wordAddr x.1 ∧ wordAddr x.1 < x.2.2 := by
  refine fun x hx => ⟨test_arrives _ _, rfl, ?_⟩
  revert x
  decide +kernel

/-! ASSEMBLE. -/

/-- Every frame lies inside IN_BUF and passes every check, for a state whose frames pass them one by one. -/
theorem test_frames_pass (s : State)
    (h : ∀ k < s.asmNframes.toNat,
      (s.descRead block k).1 + (s.descRead block k).2 ≤ block.inBufSize ∧
      frameError block s.asmNframes.toNat k (localsAt s.asmNframes.toNat s.frameBytes k) (s.frameBytes k) = none) :
    ∀ k < s.asmNframes.toNat, s.frameInside k ∧ FramePasses block s.asmNframes.toNat s.frameBytes k := by
  intro k hk
  refine ⟨(h k hk).1, ?_⟩
  rcases frameError_localsAt block s.asmNframes.toNat s.frameBytes k with ⟨_, hp⟩ | ⟨kind, he, _⟩
  · exact hp
  · rw [(h k hk).2] at he
    cases he

theorem test_frames_A1 : ∀ k < (asmState [frameA1]).asmNframes.toNat, (asmState [frameA1]).frameInside k ∧
    FramePasses block (asmState [frameA1]).asmNframes.toNat (asmState [frameA1]).frameBytes k :=
  test_frames_pass _ (by decide +kernel)

theorem test_frames_A19 : ∀ k < (asmState framesA19).asmNframes.toNat, (asmState framesA19).frameInside k ∧
    FramePasses block (asmState framesA19).asmNframes.toNat (asmState framesA19).frameBytes k :=
  test_frames_pass _ (by decide +kernel)

/-- One frame, and two. -/
theorem test_witness_AssembleWritesThePacket :
    AssembleAccepts (asmState [frameA1]) ∧ AssembleAccepts (asmState framesA19) :=
  ⟨⟨by decide +kernel, by decide +kernel, fun k hk => (test_frames_A1 k hk).1, fun _ => by decide +kernel,
      fun k hk => (test_frames_A1 k hk).2, fun h => absurd h (by decide +kernel)⟩,
    ⟨by decide +kernel, by decide +kernel, fun k hk => (test_frames_A19 k hk).1, fun h => absurd h (by decide +kernel),
      fun k hk => (test_frames_A19 k hk).2, fun _ => by decide +kernel⟩⟩

theorem test_witness_AssembleSucceedsExactlyWhenEveryCheckPasses :
    exec .assemble (asmState [frameA1]) = .next (after (exec .assemble (asmState [frameA1]))) ∧
    (after (exec .assemble (asmState [frameA1]))).errCode = 0 ∧
    exec .assemble (asmState []) = .next (after (exec .assemble (asmState []))) ∧
    (after (exec .assemble (asmState []))).errCode ≠ 0 := by
  refine ⟨rfl, by decide +kernel, rfl, by decide +kernel⟩

theorem test_witness_AssembleChecksTheListFirst :
    (descState 0 0 0).asmNframes.toNat = 0 ∧
    1024 < (descState 1025 0 0).asmNframes.toNat ∧
    ((descState 1 0x20000 1).asmNframes.toNat = 1 ∧ ¬ (descState 1 0x20000 1).frameInside 0) ∧
    ((asmState [[0x01, 0x00, 0x48, 0x00, 0x04]]).asmNframes.toNat = 1 ∧
      (asmState [[0x01, 0x00, 0x48, 0x00, 0x04]]).frameInside 0 ∧
      ((asmState [[0x01, 0x00, 0x48, 0x00, 0x04]]).frameBytes 0).length < 6) ∧
    ((asmState [[0x02, 0x00, 0x48, 0x00, 0x04, 0x40]]).asmNframes.toNat = 1 ∧
      (asmState [[0x02, 0x00, 0x48, 0x00, 0x04, 0x40]]).frameInside 0 ∧
      6 ≤ ((asmState [[0x02, 0x00, 0x48, 0x00, 0x04, 0x40]]).frameBytes 0).length ∧
      sarCode ((asmState [[0x02, 0x00, 0x48, 0x00, 0x04, 0x40]]).frameBytes 0) ≠ 0b00#2) ∧
    ((asmState [[0x03, 0x00, 0x48, 0x00, 0x04, 0x00, 0x00]]).asmNframes.toNat = 1 ∧
      (asmState [[0x03, 0x00, 0x48, 0x00, 0x04, 0x00, 0x00]]).frameInside 0 ∧
      6 ≤ ((asmState [[0x03, 0x00, 0x48, 0x00, 0x04, 0x00, 0x00]]).frameBytes 0).length ∧
      ((asmState [[0x03, 0x00, 0x48, 0x00, 0x04, 0x00, 0x00]]).frameBytes 0).length < 8 ∧
      sarCode ((asmState [[0x03, 0x00, 0x48, 0x00, 0x04, 0x00, 0x00]]).frameBytes 0) = 0b00#2) := by
  unfold State.frameInside
  decide +kernel

/-- The hypotheses of AssembleReportsTheFirstFailure, for a state whose frame k is the first not to pass. -/
theorem test_first_failure (s : State) (k : Nat) (kind : ErrKind)
    (hn : s.asmNframes.toNat ≤ 1024 ∧ k < s.asmNframes.toNat ∧
      (s.asmNframes.toNat = 1 → 6 ≤ (s.frameBytes 0).length ∧ le16 (s.frameBytes 0) 4 &&& block.sarClassMask = 0x0000#16))
    (hb : ∀ j < k, (s.descRead block j).1 + (s.descRead block j).2 ≤ block.inBufSize ∧
      frameError block s.asmNframes.toNat j (localsAt s.asmNframes.toNat s.frameBytes j) (s.frameBytes j) = none)
    (hk : (s.descRead block k).1 + (s.descRead block k).2 ≤ block.inBufSize ∧
      frameError block s.asmNframes.toNat k (localsAt s.asmNframes.toNat s.frameBytes k) (s.frameBytes k) = some kind) :
    s.asmNframes.toNat ≤ 1024 ∧ k < s.asmNframes.toNat ∧ SingleFrameOk block s.asmNframes.toNat s.frameBytes ∧
      (∀ j < k, s.frameInside j ∧ FramePasses block s.asmNframes.toNat s.frameBytes j) ∧
      ((¬ s.frameInside k ∧ kind = .capacity) ∨
        (s.frameInside k ∧ FrameFails block s.asmNframes.toNat s.frameBytes k kind)) := by
  refine ⟨hn.1, hn.2.1, hn.2.2, fun j hj => ⟨(hb j hj).1, ?_⟩, .inr ⟨hk.1, ?_⟩⟩
  · rcases frameError_localsAt block s.asmNframes.toNat s.frameBytes j with ⟨_, hp⟩ | ⟨kind, he, _⟩
    · exact hp
    · rw [(hb j hj).2] at he
      cases he
  · rcases frameError_localsAt block s.asmNframes.toNat s.frameBytes k with ⟨he, _⟩ | ⟨kind', he, hf⟩
    · rw [hk.2] at he
      cases he
    · rw [hk.2] at he
      cases he
      exact hf

/-- A descriptor outside IN_BUF. -/
theorem test_witness_AssembleReportsTheFirstFailure_capacity :
    (descState 2 0x20000 1).asmNframes.toNat ≤ 1024 ∧ 0 < (descState 2 0x20000 1).asmNframes.toNat ∧
    SingleFrameOk block (descState 2 0x20000 1).asmNframes.toNat (descState 2 0x20000 1).frameBytes ∧
    (∀ j < 0, (descState 2 0x20000 1).frameInside j ∧
      FramePasses block (descState 2 0x20000 1).asmNframes.toNat (descState 2 0x20000 1).frameBytes j) ∧
    ¬ (descState 2 0x20000 1).frameInside 0 :=
  ⟨by decide +kernel, by decide +kernel, fun h => absurd h (by decide +kernel), fun j hj => absurd hj (Nat.not_lt_zero j),
    by unfold State.frameInside; decide +kernel⟩

/-- A5, A9, A16, A18 cut to two frames, and a last frame that is a continuation: one failure of each kind. -/
theorem test_witness_AssembleReportsTheFirstFailure :
    ∀ x ∈ ([([[0x04, 0x00, 0x48, 0x00, 0x04, 0x00, 0xAB, 0xCD, 0xB1, 0xEE]], 0, .lengthMismatch),
        ([[0x06, 0x00, 0x48, 0x00, 0x04, 0x00, 0xAB, 0xCD, 0xCF, 0x37]], 0, .checksumMismatch),
        ([frameA3, [0x08, 0x00, 0x41, 0x00, 0x3E, 0xC5, 0x03, 0x04, 0x05, 0x06, 0x4E, 0x0E]], 1, .channelMismatch),
        ([[0x09, 0x00, 0x40, 0x00, 0x3C, 0x40, 0x03, 0x00, 0x01, 0x02, 0x03, 0xB9, 0x3D],
          [0x04, 0x00, 0x40, 0x00, 0x40, 0x80, 0x24, 0x24]], 1, .sequenceMismatch),
        ([frameA3, [0x08, 0x00, 0x40, 0x00, 0x3E, 0xC5, 0x03, 0x04, 0x05, 0x06, 0x8F, 0xC2]], 1, .badSegmentation)] :
        List (List Bytes × Nat × ErrKind)),
      (asmState x.1).asmNframes.toNat ≤ 1024 ∧ x.2.1 < (asmState x.1).asmNframes.toNat ∧
      SingleFrameOk block (asmState x.1).asmNframes.toNat (asmState x.1).frameBytes ∧
      (∀ j < x.2.1, (asmState x.1).frameInside j ∧
        FramePasses block (asmState x.1).asmNframes.toNat (asmState x.1).frameBytes j) ∧
      ((¬ (asmState x.1).frameInside x.2.1 ∧ x.2.2 = .capacity) ∨
        ((asmState x.1).frameInside x.2.1 ∧
          FrameFails block (asmState x.1).asmNframes.toNat (asmState x.1).frameBytes x.2.1 x.2.2)) := by
  intro x hx
  refine test_first_failure _ _ _ ?_ ?_ ?_ <;> revert x <;> decide +kernel

theorem test_witness_AssembleChecksTheTotalLast :
    1 < (asmState framesA28).asmNframes.toNat ∧ (asmState framesA28).asmNframes.toNat ≤ 1024 ∧
    (∀ k < (asmState framesA28).asmNframes.toNat, (asmState framesA28).frameInside k ∧
      FramePasses block (asmState framesA28).asmNframes.toNat (asmState framesA28).frameBytes k) ∧
    (gathered (asmState framesA28).asmNframes.toNat (asmState framesA28).frameBytes
      (asmState framesA28).asmNframes.toNat).length ≠ (le16 ((asmState framesA28).frameBytes 0) 6).toNat :=
  ⟨by decide +kernel, by decide +kernel, test_frames_pass _ (by decide +kernel), by decide +kernel⟩

/-! FRAGMENT. -/

/-- F4, M = 8. -/
theorem test_witness_FragmentOfAnEmptyPacket :
    (fragState [0x00, 0x00, 0x41, 0x00] 4 8 16 167).packetLegal ∧
    (fragState [0x00, 0x00, 0x41, 0x00] 4 8 16 167).pktSize.toNat = 4 ∧
    8 ≤ (fragState [0x00, 0x00, 0x41, 0x00] 4 8 16 167).fragMtu.toNat := by
  unfold State.packetLegal
  decide +kernel

/-- F2, L = M - 8, and one payload byte with M = 9. -/
theorem test_witness_FragmentIntoOneFrame :
    ∀ s ∈ [fragState [0x02, 0x00, 0x48, 0x00, 0xAB, 0xCD] 6 10 132 193, fragState [0x01, 0x00, 0x48, 0x00, 0xAB] 5 9 0 0],
      s.packetLegal ∧ 5 ≤ s.pktSize.toNat ∧ s.pktSize.toNat + 4 ≤ s.fragMtu.toNat := by
  unfold State.packetLegal
  decide +kernel

/-- F9, M = 11 and L = M - 7. -/
theorem test_witness_FragmentIntoASet :
    (fragState packetF9 8 11 80 63).packetLegal ∧ 11 ≤ (fragState packetF9 8 11 80 63).fragMtu.toNat ∧
    (fragState packetF9 8 11 80 63).fragMtu.toNat < (fragState packetF9 8 11 80 63).pktSize.toNat + 4 := by
  unfold State.packetLegal
  decide +kernel

/-- F18, F14, F15, F13, F12: one state for each clause, at the end of its range. -/
theorem test_witness_FragmentRefusesInOrder :
    0x20000 < (fragState [] 0x20001 3 3 3).pktSize.toNat ∧
    (fragState [0x00, 0x00, 0x48] 3 100 0 0).pktSize.toNat < 4 ∧
    (4 ≤ (fragState [0x03, 0x00, 0x48, 0x00] 4 100 0 0).pktSize.toNat ∧
      (fragState [0x03, 0x00, 0x48, 0x00] 4 100 0 0).pktSize.toNat ≤ 0x20000 ∧
      (le16 (fragState [0x03, 0x00, 0x48, 0x00] 4 100 0 0).packetBytes 0).toNat ≠
        (fragState [0x03, 0x00, 0x48, 0x00] 4 100 0 0).pktSize.toNat - 4) ∧
    ((fragState [0x00, 0x00, 0x41, 0x00] 4 7 0 0).packetLegal ∧
      (fragState [0x00, 0x00, 0x41, 0x00] 4 7 0 0).fragMtu.toNat < 8) ∧
    ((fragState [0x05, 0x00, 0x48, 0x00, 0x00, 0x00, 0x00, 0x00, 0x00] 9 10 0 0).packetLegal ∧
      (fragState [0x05, 0x00, 0x48, 0x00, 0x00, 0x00, 0x00, 0x00, 0x00] 9 10 0 0).fragMtu.toNat < 11 ∧
      (fragState [0x05, 0x00, 0x48, 0x00, 0x00, 0x00, 0x00, 0x00, 0x00] 9 10 0 0).fragMtu.toNat <
        (fragState [0x05, 0x00, 0x48, 0x00, 0x00, 0x00, 0x00, 0x00, 0x00] 9 10 0 0).pktSize.toNat + 4) := by
  unfold State.packetLegal
  decide +kernel

theorem test_witness_FragmentSucceedsExactlyWhen :
    exec .fragment (fragState packetF9 8 11 80 63) = .next (after (exec .fragment (fragState packetF9 8 11 80 63))) ∧
    (after (exec .fragment (fragState packetF9 8 11 80 63))).errCode = 0 ∧
    exec .fragment (fragState packetF9 8 10 80 63) = .next (after (exec .fragment (fragState packetF9 8 10 80 63))) ∧
    (after (exec .fragment (fragState packetF9 8 10 80 63))).errCode ≠ 0 :=
  ⟨rfl, by decide +kernel, rfl, by decide +kernel⟩

/-- F9's packet, its two frames of 11 bytes copied to IN_BUF. -/
theorem test_witness_FragmentedPacketReassembles :
    exec .fragment (fragState packetF9 8 11 80 63) = .next (after (exec .fragment (fragState packetF9 8 11 80 63))) ∧
    (after (exec .fragment (fragState packetF9 8 11 80 63))).errCode = 0 ∧
    (asmState framesF9).asmNframes.toNat = (after (exec .fragment (fragState packetF9 8 11 80 63))).resNframes.toNat ∧
    (after (exec .fragment (fragState packetF9 8 11 80 63))).resNframes.toNat ≤ 1024 ∧
    (fun k => 11 * k) 0 = 0 ∧
    (∀ k < (after (exec .fragment (fragState packetF9 8 11 80 63))).resNframes.toNat,
      (fun k => 11 * k) (k + 1) = (fun k => 11 * k) k +
        (le16 ((after (exec .fragment (fragState packetF9 8 11 80 63))).outBuf.readBytes ((fun k => 11 * k) k) 2) 0).toNat + 4 ∧
      (asmState framesF9).frameInside k ∧
      (asmState framesF9).frameBytes k =
        (after (exec .fragment (fragState packetF9 8 11 80 63))).outBuf.readBytes ((fun k => 11 * k) k)
          ((fun k => 11 * k) (k + 1) - (fun k => 11 * k) k)) := by
  refine ⟨rfl, ?_⟩
  unfold State.frameInside
  decide +kernel

/-- F9's packet with START_ACK = 0x20 and the wide mask. -/
theorem test_witness_WideMaskBreaksTheRoundTrip :
    ({ block with sarClassMask := 0xE000 } : Config.Params).sarClassMask = 0xE000#16 ∧
    ({ block with sarClassMask := 0xE000 } : Config.Params).emptyAck = emptyAckLow ∧ (0x20#8).getLsbD 5 = true ∧
    11 ≤ 65535 ∧
    ∃ r : Success, fragmentPacket { block with sarClassMask := 0xE000 } packetF9 11 80 0x20 = .ok r ∧
      r.nframes ≤ ({ block with sarClassMask := 0xE000 } : Config.Params).maxFrames ∧
      (fun _ => .ok (r.out.take ((le16 r.out 0).toNat + 4)) : Nat → Except Failure Bytes) 0 =
        .ok (r.out.take ((le16 r.out 0).toNat + 4)) := by
  refine ⟨rfl, rfl, by decide, by decide, _, rfl, ?_, rfl⟩
  decide +kernel

/-! The register-write actions, frames, and the whole machine. -/

theorem test_witness_ClearsChangeOneFlag : (idle false).busy = false := rfl

theorem test_witness_ClearsWhileBusyAreDropped : (idle true).busy = true ∧
    (Instr.clrDone = Instr.clrDone ∨ Instr.clrDone = Instr.clrWerr) ∧
    (Instr.clrWerr = Instr.clrDone ∨ Instr.clrWerr = Instr.clrWerr) := by decide +kernel

/-- The smallest frame and the largest. -/
theorem test_witness_BuiltFramePassesItsOwnChecks :
    (build block 0x41 0x10 0x27 none []).length - 4 ≤ 0xFFFF ∧
    (build block 0x41 0x10 0x27 none (List.replicate 65531 0)).length - 4 ≤ 0xFFFF := by
  rw [length_build, length_build, List.length_replicate]
  decide +kernel

/-- The first and the last covered bit of A1's frame. -/
theorem test_witness_SingleBitErrorBreaksTheChecksum :
    0 < frameA1.length - 2 ∧ 7 < frameA1.length - 2 ∧ (0 : Nat) < 8 ∧ (7 : Nat) < 8 ∧ checksumOk block frameA1 = true := by
  decide +kernel

theorem test_witness_EveryStepKeepsTheInvariant :
    Inv (arriving false (.wr 0x0C 1 0xF)) ∧
    step (arriving false (.wr 0x0C 1 0xF)) = .next (after (step (arriving false (.wr 0x0C 1 0xF)))) := by
  refine ⟨⟨Memory.wf_unspecified _ _, Memory.wf_unspecified _ _, Memory.wf_unspecified _ _, by decide, by decide, by decide,
    by decide, by decide, fun h => absurd h (by decide), by decide, by decide, by decide, by decide, by decide, by decide⟩,
    rfl⟩

/-- The input asserted, released after an assertion, and released once more. -/
theorem test_witness_HardResetClearsTheRegisters :
    ({ idle true with sched := [.reset true, .engine] }).sched = .reset true :: [.engine] ∧
    (({ idle false with sched := [.reset false], resetHeld := true }).sched = .reset false :: [] ∧
      ({ idle false with sched := [.reset false], resetHeld := true }).resetHeld = true) ∧
    (({ idle false with sched := [.reset false] }).sched = .reset false :: [] ∧
      ({ idle false with sched := [.reset false] }).resetHeld = false) := ⟨rfl, ⟨rfl, rfl⟩, rfl, rfl⟩

/-- The invariant with the reset input asserted, whatever the host's next operation is. -/
theorem test_inv_in_reset (op : HostOp) : Inv { arriving false op with resetHeld := true } :=
  ⟨Memory.wf_unspecified _ _, Memory.wf_unspecified _ _, Memory.wf_unspecified _ _, (by decide : 0 < 3), (by decide : 1 < 3),
    (by decide : 2 < 3), (by decide : 0 ≠ 1 ∧ 0 ≠ 2 ∧ 1 ≠ 2), fun _ => rfl,
    fun _ => ⟨rfl, rfl, rfl, rfl, rfl, rfl, rfl, rfl, rfl, rfl, rfl, rfl, rfl, rfl⟩, (by decide : (0 : BitVec 8) ≤ 10),
    fun _ => ⟨rfl, rfl, rfl⟩, fun _ => rfl, .inl (by decide : (0 : BitVec 16).toNat < 1024),
    (by decide : (0 : BitVec 32).toNat ≤ 21846), (by decide : (0 : BitVec 32).toNat ≤ 240305)⟩

/-- A CMD write, a STATUS read, and reads at both ends of the buffers. -/
theorem test_witness_AssertedResetHoldsTheBlock :
    (HostMoves (.wr 0x0C 1 0xF) { arriving false (.wr 0x0C 1 0xF) with resetHeld := true }
        { State.reset with resetHeld := true } ∧
      ({ arriving false (.wr 0x0C 1 0xF) with resetHeld := true }).resetHeld = true ∧
      Inv { arriving false (.wr 0x0C 1 0xF) with resetHeld := true }) ∧
    (HostMoves (.rd 0x08) { arriving false (.rd 0x08) with resetHeld := true } { State.reset with resetHeld := true } ∧
      Inv { arriving false (.rd 0x08) with resetHeld := true } ∧ Reg.ofOffset (wordAddr 0x08) = some .status) ∧
    (∀ x ∈ ([(0x010000, 0x010000), (0x011FFF, 0x010000), (0x100000, 0x100000), (0x11FFFF, 0x100000), (0x200000, 0x200000),
        (0x23FFFF, 0x200000)] : List (Addr × Nat)),
      HostMoves (.rd x.1) { arriving false (.rd x.1) with resetHeld := true } { State.reset with resetHeld := true } ∧
      x.2 ≤ wordAddr x.1 ∧
      ((x.2 = 0x010000 ∧ wordAddr x.1 < 0x012000) ∨ (x.2 = 0x100000 ∧ wordAddr x.1 < 0x120000) ∨
        (x.2 = 0x200000 ∧ wordAddr x.1 < 0x240000))) := by
  refine ⟨⟨test_moves_in_reset _, rfl, test_inv_in_reset _⟩, ⟨test_moves_in_reset _, test_inv_in_reset _, rfl⟩,
    fun x hx => ⟨test_moves_in_reset _, ?_⟩⟩
  revert x
  decide +kernel

theorem test_witness_CommandInFlightEnds : ({ idle true with sched := [.host, .host] }).busy = true := rfl

/-- A completion with IE set, and IE set while DONE is 1. -/
theorem test_witness_IrqRisesOnlyByCompletionOrEnable :
    (step { idle true with ie := true } = .next (after (step { idle true with ie := true })) ∧
      State.irq { idle true with ie := true } = false ∧ (after (step { idle true with ie := true })).irq = true) ∧
    (step { arriving false (.wr 0x04 1 0xF) with done := true } =
        .next (after (step { arriving false (.wr 0x04 1 0xF) with done := true })) ∧
      State.irq { arriving false (.wr 0x04 1 0xF) with done := true } = false ∧
      (after (step { arriving false (.wr 0x04 1 0xF) with done := true })).irq = true) :=
  ⟨⟨rfl, by decide +kernel⟩, ⟨rfl, by decide +kernel⟩⟩

theorem test_witness_ResultsChangeOnlyAtCompletionOrReset : step (idle true) = .next (after (step (idle true))) := rfl

/-- A host read, a dropped write and a CTRL write with a command in flight. -/
theorem test_witness_CommandInFlightKeepsItsInputs :
    ∀ op ∈ [HostOp.rd 0x200000, .wr 0x100000 1 0xF, .wr 0x04 1 0xF],
      step (arriving true op) = .next (after (step (arriving true op))) ∧ (arriving true op).busy = true ∧
      (after (step (arriving true op))).busy = true := by
  simp only [List.forall_mem_cons, List.not_mem_nil, false_imp_iff, implies_true]
  and_intros <;> first | rfl | trivial

/-- Two states that differ in every part the outcome may not depend on. -/
theorem test_witness_OutcomeDependsOnTheInputsAlone :
    SameParams (asmState [frameA1])
      { asmState [frameA1] with ie := true, werr := true, resCid := 7, errCode := 3, outBuf := ⟨9, [(0, 1)]⟩ } ∧
    SameInBuffers (asmState [frameA1])
      { asmState [frameA1] with ie := true, werr := true, resCid := 7, errCode := 3, outBuf := ⟨9, [(0, 1)]⟩ } :=
  ⟨⟨rfl, rfl, rfl, rfl, rfl⟩, fun _ => rfl, fun _ => rfl⟩

theorem test_witness_DroppedWriteBeforeCompletionShowsInWerrAlone :
    ∀ a ∈ ([0x08, 0x3B, 0x010000, 0x23FFFF] : List Addr),
      (idle true).resetHeld = false ∧ (idle true).busy = true ∧ wordAddr a ≠ 0x04 ∧ ¬ ReservedWord (wordAddr a) := by
  unfold ReservedWord
  simp only [List.forall_mem_cons, List.not_mem_nil, false_imp_iff, implies_true]
  and_intros <;> decide

theorem test_witness_SoftResetRacesEndAtResetValues : (idle true).busy = true := rfl

end Sys2Proof.Tests
end

section
/-! PROOFS. The state of the block (10_state.md): what a reset, a completion, a host access and a step leave, each said
once, and after them the statements about resets, completions and the command in flight. -/

namespace Sys2Proof.Machine

/-! ### Resets -/

/-- Registers at their reset values are read as after reset (10_state.md R45). -/
theorem regRead_of_registersReset {t : State} (h : RegistersReset t) (r : Reg) : t.regRead r = State.reset.regRead r := by
  obtain ⟨hie, hbusy, hdone, hwerr, hcode, hframe, hcid, hlen, hn, hasm, hmtu, hseq, hack, hsize⟩ := h
  cases r <;>
    simp [State.regRead, State.ctrlWord, State.statusWord, State.errWord, State.seqackWord, State.reset, *]

/-- With the registers at their reset values the IRQ output is 0 (60_exceptions.md R250). -/
theorem irq_of_registersReset {t : State} (h : RegistersReset t) : t.irq = false := by
  obtain ⟨_, _, hdone, _⟩ := h
  rw [State.irq, hdone, Bool.false_and]

theorem registersReset_softReset (s : State) : RegistersReset s.softReset := by
  simp [RegistersReset]

theorem registersReset_hardReset (asserted : Bool) (s : State) : RegistersReset (s.hardReset asserted) := by
  simp [RegistersReset]

/-- The reset input's move acts as a hard reset unless it releases a released input (70_reset_and_hazards.md R270). -/
theorem step_of_reset {s : State} {asserted : Bool} {turns : List Turn} (h : s.sched = .reset asserted :: turns) :
    step s = .next (if asserted = true ∨ s.resetHeld = true then State.hardReset asserted { s with sched := turns }
      else { s with sched := turns }) := by
  simp only [step, h, resetTurn]

/-! ### Completions -/

@[simp] theorem State.complete_busy (s : State) (r : Except Failure Success) : (s.complete r).busy = false := by
  cases r <;> rfl

@[simp] theorem State.complete_done (s : State) (r : Except Failure Success) : (s.complete r).done = true := by
  cases r <;> rfl

/-- A completion raises the IRQ output exactly if CTRL.IE = 1 (60_exceptions.md R250). -/
theorem State.complete_irq (s : State) (r : Except Failure Success) : (s.complete r).irq = s.ie := by
  cases r <;> exact Bool.true_and s.ie

@[simp] theorem State.complete_sched (s : State) (r : Except Failure Success) : (s.complete r).sched = s.sched := by
  cases r <;> rfl

/-- No completion changes the parameters, DESC, IN_BUF, CTRL, WERR, the latch, or what stands outside the block
(60_exceptions.md R243, R244). -/
theorem commandFrame_complete (s : State) (r : Except Failure Success) : CommandFrame s (s.complete r) := by
  cases r <;>
    exact ⟨⟨rfl, rfl, rfl, rfl, rfl⟩, ⟨fun _ => rfl, fun _ => rfl⟩, rfl, rfl, rfl, rfl, rfl, rfl, rfl⟩

/-- The error codes are 1 to 10 (60_exceptions.md R240). -/
theorem ErrKind.code_range (kind : ErrKind) : kind.code ≠ 0 ∧ kind.code.toNat ≤ 10 := by
  cases kind <;> decide

theorem Failure.errFrame_of_none {e : Failure} (h : e.frame = none) : e.errFrame = 0xFFFF := by
  rw [Failure.errFrame, h]

theorem Failure.errFrame_of_some {e : Failure} {k : Nat} (h : e.frame = some k) (hk : k < 0x10000) :
    e.errFrame.toNat = k := by
  rw [Failure.errFrame, h]
  exact Nat.mod_eq_of_lt hk

theorem State.fetch_error_frame {s : State} {k : Nat} {e : Failure} (h : s.fetch block k = .error e) :
    e.frame = some k := by
  rcases s.fetch_eq k with hk | hk <;> rw [hk] at h <;> cases h
  rfl

/-- The checks on the frame list name no frame but frame 0 of a one-frame list (41_assemble.md R161). -/
theorem listError_frame_lt {s : State} {e : Failure} {k : Nat}
    (h : listError block s.asmNframes.toNat (s.fetch block) = some e) (hk : e.frame = some k) :
    k < s.asmNframes.toNat := by
  unfold listError at h
  split at h
  · cases h; cases hk
  · split at h
    · cases h; cases hk
    · split at h
      · have h0 : e.frame = some 0 := by
          split at h
          · cases h; exact State.fetch_error_frame ‹_›
          · split at h
            · cases h; rfl
            · split at h <;> cases h
              rfl
        rw [h0] at hk
        cases hk
        omega
      · cases h

/-- A failing ASSEMBLE names no frame or a descriptor of its list (60_exceptions.md R242). -/
theorem assembleOutcome_error_frame_lt {s : State} {e : Failure} {k : Nat} (h : s.assembleOutcome block = .error e)
    (hk : e.frame = some k) : k < s.asmNframes.toNat := by
  unfold State.assembleOutcome assembleList at h
  cases hl : listError block s.asmNframes.toNat (s.fetch block) with
  | some e' =>
    rw [hl] at h
    cases h
    exact listError_frame_lt hl hk
  | none =>
    rw [hl] at h
    simp only at h
    rcases assembleLoop_cases block s.asmNframes.toNat (s.fetch block) s.frameBytes s.asmNframes.toNat
        (fun k f hf => by rcases s.fetch_eq k with h | h <;> rw [h] at hf <;> cases hf; rfl) with
      ⟨_, hloop⟩ | ⟨j, hj, e', _, he', hloop⟩ | ⟨j, hj, kind, _, _, _, hloop⟩
    · simp only [hloop, assembleEnd] at h
      split at h <;> cases h
      cases hk
    · simp only [hloop] at h
      cases h
      rw [State.fetch_error_frame he'] at hk
      cases hk
      exact hj
    · simp only [hloop] at h
      cases h
      cases hk
      exact hj

theorem fragmentFrames_error_frame {p : Config.Params} {a : FragArgs} {pay : Bytes} {m : Nat} {e : Failure}
    (h : fragmentFrames p a pay m = .error e) : e.frame = none := by
  unfold fragmentFrames at h
  split at h
  · cases h; rfl
  · split at h
    · cases h
    · split at h
      · cases h
      · split at h
        · cases h; rfl
        · split at h <;> cases h
          rfl

/-- A failing FRAGMENT names no frame (60_exceptions.md R242). -/
theorem fragmentOutcome_error_frame {p : Config.Params} {s : State} {e : Failure} (h : s.fragmentOutcome p = .error e) :
    e.frame = none := by
  unfold State.fragmentOutcome fragmentPacket at h
  split at h
  · cases h; rfl
  · split at h
    · cases h; rfl
    · split at h
      · cases h; rfl
      · split at h <;> cases h
        exact fragmentFrames_error_frame ‹_›

/-- What a command can answer, with the frame a failure names: every command word completes with an outcome inside the
block's bounds, and only ASSEMBLE names a frame, one of its list (60_exceptions.md R242). -/
theorem exec_decodeCommand_frame (w : Word) (s : State) :
    ∃ r, exec (decodeCommand w) s = .next (s.complete r) ∧ OutcomeFits r ∧
      ∀ e k, r = .error e → e.frame = some k → w = 1 ∧ k < s.asmNframes.toNat := by
  unfold decodeCommand
  split
  · exact ⟨_, rfl, assembleOutcome_fits s, fun e k he hk => ⟨‹_›, assembleOutcome_error_frame_lt he hk⟩⟩
  · split
    · refine ⟨_, rfl, fragmentOutcome_fits s, fun e k he hk => ?_⟩
      rw [fragmentOutcome_error_frame he] at hk
      cases hk
    · exact ⟨.error ⟨.invalidCommand, none⟩, rfl, (fun k hk => nomatch hk), fun e k he hk => by cases he; cases hk⟩

/-! ### Host accesses -/

/-- While BUSY = 1 a host write is dropped with WERR, or it is a CTRL write, or it does nothing (43_host_control.md R224). -/
theorem WriteEffect.of_busy {s t : State} (h : WriteEffect s t) (hb : s.busy = true) :
    t = s ∨ t = s.dropWrite ∨ t = s.softReset ∨ ∃ ie, t = { s with ie := ie } := by
  cases h with
  | none => exact .inl rfl
  | drop _ => exact .inr (.inl rfl)
  | softReset => exact .inr (.inr (.inl rfl))
  | setIe ie => exact .inr (.inr (.inr ⟨ie, rfl⟩))
  | _ => simp_all

/-- A host write keeps ERR and the results, or is a soft reset (10_state.md R28, R33 to R35). -/
theorem WriteEffect.results {s t : State} (h : WriteEffect s t) : SameResults s t ∨ RegistersReset t := by
  cases h with
  | softReset => exact .inr (registersReset_softReset s)
  | _ => exact .inl ⟨rfl, rfl, rfl, rfl, rfl⟩

/-- No host write changes the order of moves (log 3). -/
theorem WriteEffect.sched_eq {s t : State} (h : WriteEffect s t) : t.sched = s.sched := by
  cases h <;> rfl

/-- While the reset input is asserted a read in a buffer's window is a free read of the word's offset, whose four bytes
lie in the buffer (70_reset_and_hazards.md R270). -/
theorem hostRead_held {s : State} {a : Addr} {base : Nat} (hr : s.resetHeld = true) (hlo : base ≤ wordAddr a)
    (hwin : (base = 0x010000 ∧ wordAddr a < 0x012000) ∨ (base = 0x100000 ∧ wordAddr a < 0x120000) ∨
      (base = 0x200000 ∧ wordAddr a < 0x240000)) :
    ∃ size, hostRead a s = s.freeRead size (wordAddr a - base) ∧ wordAddr a - base + 4 ≤ size := by
  have halign : wordAddr a % 4 = 0 := by simp [wordAddr]
  rcases hwin with ⟨rfl, hhi⟩ | ⟨rfl, hhi⟩ | ⟨rfl, hhi⟩
  · refine ⟨descBytes block, ?_, (by omega : wordAddr a - 0x010000 + 4 ≤ 0x2000)⟩
    simp only [hostRead, locate_desc ⟨hlo, hhi⟩, hr, if_true]
  · refine ⟨block.inBufSize, ?_, (by omega : wordAddr a - 0x100000 + 4 ≤ 0x20000)⟩
    simp only [hostRead, locate_inBuf ⟨hlo, hhi⟩, hr, if_true]
  · refine ⟨block.outBufSize, ?_, (by omega : wordAddr a - 0x200000 + 4 ≤ 0x40000)⟩
    simp only [hostRead, locate_outBuf ⟨hlo, hhi⟩, hr, true_or, if_true]

/-- Each lane of a free read inside the buffer is a free byte of the read's own draw (log 8, log 24). -/
theorem lane_freeRead {size a i : Nat} (s : State) (hi : i < 4) (h : a + i < size) :
    lane (s.freeRead size a).1 i = Config.freeByte s.draws (a + i) := by
  have hlane : lane (s.freeRead size a).1 i = freeLane size s.draws a i := by
    rw [State.freeRead, lane_wordOfLanes _ _ _ _ _ hi]
    interval_cases i <;> rfl
  rw [hlane, freeLane, if_pos h]

/-- A read of a register answers its value and changes nothing (43_host_control.md R227). -/
theorem hostRead_reg {a : Addr} {r : Reg} (s : State) (h : Reg.ofOffset (wordAddr a) = some r) :
    hostRead a s = (s.regRead r, s) := by
  simp only [hostRead, locate_reg h]

/-- The host's move takes one operation and one move off, and nothing of the block. -/
theorem HostMoves.keeps_block {op : HostOp} {s s' : State} (h : HostMoves op s s') :
    s'.resetHeld = s.resetHeld ∧ s'.draws = s.draws ∧ (RegistersReset s → RegistersReset s') := by
  obtain ⟨turns, ops, _, _, rfl⟩ := h
  exact ⟨rfl, rfl, id⟩

/-! ### A step -/

/-- The next state of a step is one that StepEffect lists. -/
theorem stepEffect_of_step {s t : State} (h : step s = .next t) : StepEffect s t := by
  obtain ⟨t', ht', e⟩ := step_effect s
  rw [h] at ht'
  cases ht'
  exact e

/-- A host's move leaves the order of moves (log 3). -/
theorem hostTurn_sched {s t : State} (h : hostTurn s = .next t) : t.sched = s.sched := by
  unfold hostTurn at h
  split at h
  · cases h; rfl
  · rename_i op ops _
    obtain ⟨t', ht', e⟩ := hostOp_effect op { s with inbox := ops }
    rw [h] at ht'
    cases ht'
    rcases e with ⟨_, e⟩ | ⟨_, _, _, _, rfl⟩
    · exact e.sched_eq
    · rfl

/-- The engine's move leaves the order of moves, and nothing in flight (10_state.md R43; log 3). -/
theorem engineTurn_next (s : State) : ∃ t, engineTurn s = .next t ∧ t.busy = false ∧ t.sched = s.sched := by
  unfold engineTurn
  split
  · obtain ⟨r, _, h⟩ := exec_decodeCommand s.latch s
    exact ⟨_, h, s.complete_busy r, s.complete_sched r⟩
  · exact ⟨s, rfl, Bool.eq_false_of_not_eq_true ‹_›, rfl⟩

/-- A step with a command in flight ends it, or takes the next move off the given order: once that order is used up the
engine moves (log 3). -/
theorem step_of_busy {s : State} (hb : s.busy = true) :
    ∃ t, step s = .next t ∧ (t.busy = false ∨ ∃ turn, s.sched = turn :: t.sched) := by
  obtain ⟨t, h, _⟩ := step_effect s
  refine ⟨t, h, ?_⟩
  unfold step at h
  split at h
  · rw [if_pos hb] at h
    obtain ⟨t', ht', hidle, _⟩ := engineTurn_next s
    rw [h] at ht'
    cases ht'
    exact .inl hidle
  · rename_i rest _
    obtain ⟨t', ht', hidle, _⟩ := engineTurn_next { s with sched := rest }
    rw [h] at ht'
    cases ht'
    exact .inl hidle
  · rename_i rest hs
    rw [hs, hostTurn_sched h]
    exact .inr ⟨_, rfl⟩
  · rename_i asserted rest hs
    rw [resetTurn] at h
    cases h
    rw [hs]
    refine .inr ⟨.reset asserted, ?_⟩
    split <;> rfl

/-- A run of k + 1 steps is a step and a run of k. -/
theorem run_succ_of_step {s t : State} (h : step s = .next t) (k : Nat) :
    Host.Core.run core (k + 1) s = Host.Core.run core k t := by
  have hcore : core.step s = .next t := h
  simp only [Host.Core.run, hcore]

/-- What a command in flight may rely on (10_state.md R42, 20_memory.md R77): the latch, DONE, its inputs, OUT_BUF and the
last results are as before. -/
def KeepsCommand (s t : State) : Prop :=
  t.latch = s.latch ∧ t.done = s.done ∧ SameParams s t ∧ SameInBuffers s t ∧ SameOutBuf s t ∧ SameResults s t

/-- Only IE, WERR and what is the model's own differ: a command in flight is kept. -/
theorem keepsCommand_of_update (s : State) (ie werr : Bool) (d : Nat) (ib : List HostOp) (turns : List Turn)
    (rs : List Word) :
    KeepsCommand s { s with ie := ie, werr := werr, draws := d, inbox := ib, sched := turns, replies := rs } :=
  ⟨rfl, rfl, ⟨rfl, rfl, rfl, rfl, rfl⟩, ⟨fun _ => rfl, fun _ => rfl⟩, fun _ => rfl, rfl, rfl, rfl, rfl, rfl⟩

/-- A step that leaves a command in flight keeps it (43_host_control.md R224). -/
theorem StepEffect.keepsCommand {s t : State} (h : StepEffect s t) (hs : s.busy = true) (ht : t.busy = true) :
    KeepsCommand s t := by
  cases h with
  | complete rest r _ _ => simp at ht
  | write rest ops t _ e =>
    rcases e.of_busy hs with rfl | rfl | rfl | ⟨ie, rfl⟩
    · exact keepsCommand_of_update s s.ie s.werr s.draws ops rest s.replies
    · exact keepsCommand_of_update s s.ie true s.draws ops rest s.replies
    · simp at ht
    · exact keepsCommand_of_update s ie s.werr s.draws ops rest s.replies
  | read rest ops d rs _ => exact keepsCommand_of_update s s.ie s.werr d ops rest rs
  | hardReset rest asserted => simp at ht
  | pass rest => exact keepsCommand_of_update s s.ie s.werr s.draws s.inbox rest s.replies

/-- A step keeps ERR and the results, completes the command in flight, or is a reset (10_state.md R28, R33 to R35,
R38). -/
theorem StepEffect.results {s t : State} (h : StepEffect s t) :
    SameResults s t ∨ (s.busy = true ∧ t.busy = false ∧ t.done = true) ∨ RegistersReset t := by
  cases h with
  | complete rest r hb _ => exact .inr (.inl ⟨hb, State.complete_busy _ r, State.complete_done _ r⟩)
  | write rest ops t _ e =>
    rcases e.results with hsame | hreset
    · exact .inl hsame
    · exact .inr (.inr hreset)
  | read rest ops d rs _ => exact .inl ⟨rfl, rfl, rfl, rfl, rfl⟩
  | hardReset rest asserted => exact .inr (.inr (registersReset_hardReset asserted _))
  | pass rest => exact .inl ⟨rfl, rfl, rfl, rfl, rfl⟩

/-! ### The statements -/

/-- Settles O21: every command word ends in a completion, which is a success or a failure of a known kind and frame. -/
theorem everyCommandCompletes : Obligations.EveryCommandCompletes := by
  intro w s
  obtain ⟨r, hexec, hfits, hframe⟩ := exec_decodeCommand_frame w s
  refine ⟨s.complete r, hexec, s.complete_busy r, s.complete_done r, s.complete_irq r, ?_⟩
  cases r with
  | ok r => exact ⟨Nat.zero_le 10, fun _ => rfl, fun h => absurd rfl h, commandFrame_complete s (.ok r)⟩
  | error e =>
    obtain ⟨hcode, hrange⟩ := e.kind.code_range
    refine ⟨hrange, fun h => absurd h hcode, fun _ => ?_, commandFrame_complete s (.error e)⟩
    cases hf : e.frame with
    | none => exact .inl (Failure.errFrame_of_none hf)
    | some k =>
      obtain ⟨hw, hk⟩ := hframe e k rfl hf
      have hlt : k < 1024 := hfits k hf
      have herr : (s.complete (.error e)).errFrame.toNat = k := Failure.errFrame_of_some hf (by omega)
      exact .inr ⟨hw, by rw [herr]; exact hk⟩

/-- Settles O47: Inv holds the registers at reset, hostWrite_held stops the writes, and buffer reads are free. -/
theorem assertedResetHoldsTheBlock : Obligations.AssertedResetHoldsTheBlock := by
  intro s s' hr
  refine ⟨fun hinv => ?_, fun a w strb hm => ?_, fun a hm hinv r hreg => ?_, fun a base hm hlo hwin => ?_⟩
  · exact ⟨hinv.held_reset hr, irq_of_registersReset (hinv.held_reset hr)⟩
  · obtain ⟨hheld, _, _⟩ := hm.keeps_block
    rw [step_of_hostMoves hm]
    exact hostWrite_held a w strb (hheld.trans hr)
  · obtain ⟨_, _, hregs⟩ := hm.keeps_block
    rw [step_of_hostMoves hm, hostOp, hostRead_reg s' hreg,
      regRead_of_registersReset (hregs (hinv.held_reset hr)) r]
    rfl
  · obtain ⟨hheld, hdraws, _⟩ := hm.keeps_block
    obtain ⟨size, hread, hsize⟩ := hostRead_held (hheld.trans hr) hlo hwin
    refine ⟨(s'.freeRead size (wordAddr a - base)).1, ?_, fun i hi => ?_⟩
    · rw [step_of_hostMoves hm, hostOp, hread, ← hdraws]
      rfl
    · rw [lane_freeRead s' hi (by omega), hdraws]

/-- Settles O48, by induction on the given order of moves: each step ends the command or uses up a move. -/
theorem commandInFlightEnds : Obligations.CommandInFlightEnds := by
  intro s hs
  induction hn : s.sched.length generalizing s with
  | zero =>
    obtain ⟨t, hstep, hidle | ⟨turn, hsched⟩⟩ := step_of_busy hs
    · exact ⟨1, Nat.le_refl 1, t, run_succ_of_step hstep 0, hidle⟩
    · simp [hsched] at hn
  | succ n ih =>
    obtain ⟨t, hstep, hend⟩ := step_of_busy hs
    cases ht : t.busy with
    | false => exact ⟨1, by omega, t, run_succ_of_step hstep 0, ht⟩
    | true =>
      obtain ⟨turn, hsched⟩ := hend.resolve_left (by simp [ht])
      obtain ⟨k, hk, u, hrun, hidle⟩ := ih t ht (by simpa [hsched] using hn)
      exact ⟨k + 1, by omega, u, (run_succ_of_step hstep k).trans hrun, hidle⟩

/-- Settles O50, by cases on what a step can do. -/
theorem resultsChangeOnlyAtCompletionOrReset : Obligations.ResultsChangeOnlyAtCompletionOrReset := by
  intro s t h
  rcases (stepEffect_of_step h).results with hsame | hdone | hreset
  · exact .inl hsame
  · exact .inr (.inl hdone)
  · obtain ⟨hie, hbusy, hdone, _, hcode, hframe, hcid, hlen, hn, _⟩ := hreset
    exact .inr (.inr ⟨hcode, hframe, hcid, hlen, hn, hbusy, hdone, hie⟩)

/-- Settles O51: of what a step can do, what leaves BUSY at 1 keeps the command. -/
theorem commandInFlightKeepsItsInputs : Obligations.CommandInFlightKeepsItsInputs :=
  fun _ _ h hs ht => (stepEffect_of_step h).keepsCommand hs ht

/-- Settles O5: taking the move off changes neither BUSY nor the latch. -/
theorem engineMoveRunsTheDecodedLatch : Obligations.EngineMoveRunsTheDecodedLatch := by
  intro s s' hm
  have hstep := step_of_engineMoves hm
  obtain ⟨turns, _, rfl⟩ := hm
  exact ⟨fun hb => hstep.trans (if_pos hb), fun hb => hstep.trans (if_neg (by simp [hb]))⟩

/-- Settles O44: at reset no byte is written, the draws 0, 1 and 2 are in use, and every register is 0. -/
theorem resetMeetsTheInvariant : Obligations.ResetMeetsTheInvariant := by
  obtain ⟨hdesc, _, _⟩ := reset_memories_wf (descBytes block)
  obtain ⟨_, hin, _⟩ := reset_memories_wf block.inBufSize
  obtain ⟨_, _, hout⟩ := reset_memories_wf block.outBufSize
  exact {
    desc_wf := hdesc
    inBuf_wf := hin
    outBuf_wf := hout
    desc_draw := by decide
    inBuf_draw := by decide
    outBuf_draw := by decide
    draws_differ := by decide
    busy_not_done := fun _ => rfl
    held_reset := fun h => nomatch h
    code_le := by decide
    error_clears := fun _ => ⟨rfl, rfl, rfl⟩
    frame_zero := fun _ => rfl
    frame_range := .inl (by decide)
    nframes_le := by decide
    len_le := by decide }

/-- Settles O46: an assertion and a release are one hard reset, a release of a released input passes. -/
theorem hardResetClearsTheRegisters : Obligations.HardResetClearsTheRegisters := by
  refine ⟨fun r => by cases r <;> rfl, rfl, rfl, fun s asserted turns hs => ⟨fun hact => ?_, fun ha hr => ?_⟩⟩
  · have hregs := registersReset_hardReset asserted { s with sched := turns }
    refine ⟨_, (step_of_reset hs).trans (by rw [if_pos hact]), rfl, hregs, regRead_of_registersReset hregs,
      irq_of_registersReset hregs, fun _ => rfl, fun _ => rfl, fun _ => rfl, rfl, rfl, rfl, rfl⟩
  · rw [step_of_reset hs, if_neg (by simp [ha, hr])]

end Sys2Proof.Machine
end

section
/-! PROOFS. Memories (20_memory.md): what a host read and a host write of each part of the block window do, each said once,
what a command's outcome depends on, and that every step keeps the invariant; after them the statements. -/

namespace Sys2Proof.Machine

/-! ### Every step keeps the invariant -/

/-- What stands outside the block, and draws not yet taken, are no matter of the invariant. -/
theorem Inv.of_host_update {s : State} (h : Inv s) (turns : List Turn) (ops : List HostOp) {d : Nat} (rs : List Word)
    (hd : s.draws ≤ d) : Inv { s with sched := turns, inbox := ops, draws := d, replies := rs } :=
  { h with
    desc_draw := Nat.lt_of_lt_of_le h.desc_draw hd
    inBuf_draw := Nat.lt_of_lt_of_le h.inBuf_draw hd
    outBuf_draw := Nat.lt_of_lt_of_le h.outBuf_draw hd }

/-- A hard reset meets the invariant from any state (70_reset_and_hazards.md R270). -/
theorem inv_hardReset (asserted : Bool) (s : State) : Inv (s.hardReset asserted) where
  desc_wf := Memory.wf_unspecified _ _
  inBuf_wf := Memory.wf_unspecified _ _
  outBuf_wf := Memory.wf_unspecified _ _
  desc_draw := by simp
  inBuf_draw := by simp
  outBuf_draw := by simp
  draws_differ := by simp
  busy_not_done := fun _ => rfl
  held_reset := fun _ => registersReset_hardReset asserted s
  code_le := by simp
  error_clears := fun _ => ⟨rfl, rfl, rfl⟩
  frame_zero := fun _ => rfl
  frame_range := .inl (by simp [block])
  nframes_le := by simp
  len_le := by simp

/-- A soft reset keeps the invariant; a lost OUT_BUF takes a draw no memory has (70_reset_and_hazards.md R272; log 7). -/
theorem Inv.softReset {s : State} (h : Inv s) : Inv s.softReset := by
  obtain ⟨hdi, hdo, hio⟩ := h.draws_differ
  have hdesc := h.desc_draw
  have hin := h.inBuf_draw
  have hout := h.outBuf_draw
  exact {
    desc_wf := h.desc_wf
    inBuf_wf := h.inBuf_wf
    outBuf_wf := by
      rw [State.softReset_outBuf]
      split
      · exact Memory.wf_unspecified _ _
      · exact h.outBuf_wf
    desc_draw := Nat.lt_succ_of_lt hdesc
    inBuf_draw := Nat.lt_succ_of_lt hin
    outBuf_draw := by
      rw [State.softReset_outBuf, State.softReset_draws]
      split
      · exact Nat.lt_succ_self _
      · exact Nat.lt_succ_of_lt hout
    draws_differ := by
      rw [State.softReset_desc, State.softReset_inBuf, State.softReset_outBuf]
      split
      · exact ⟨hdi, hdesc.ne, hin.ne⟩
      · exact ⟨hdi, hdo, hio⟩
    busy_not_done := fun _ => rfl
    held_reset := fun _ => registersReset_softReset s
    code_le := by simp
    error_clears := fun _ => ⟨rfl, rfl, rfl⟩
    frame_zero := fun _ => rfl
    frame_range := .inl (by simp [block])
    nframes_le := by simp
    len_le := by simp }

/-- What every failure writes into ERR (60_exceptions.md R242): a descriptor's index or 0xFFFF. -/
theorem Failure.errFrame_range {e : Failure} (h : OutcomeFits (.error e)) :
    e.errFrame.toNat < block.maxFrames ∨ e.errFrame = 0xFFFF := by
  cases hf : e.frame with
  | none => exact .inr (Failure.errFrame_of_none hf)
  | some k =>
    have hk : k < 1024 := h k hf
    exact .inl (by rw [Failure.errFrame_of_some hf (by omega)]; exact hk)

/-- A completion with an outcome inside the block's bounds keeps the invariant, the reset input being released
(60_exceptions.md R243, R244). -/
theorem Inv.complete {s : State} {r : Except Failure Success} (h : Inv s) (hr : s.resetHeld = false)
    (hfits : OutcomeFits r) : Inv (s.complete r) := by
  obtain ⟨hdi, hdo, hio⟩ := h.draws_differ
  cases r with
  | error e =>
    obtain ⟨hcode, hle⟩ := e.kind.code_range
    exact {
      desc_wf := h.desc_wf
      inBuf_wf := h.inBuf_wf
      outBuf_wf := Memory.wf_unspecified _ _
      desc_draw := Nat.lt_succ_of_lt h.desc_draw
      inBuf_draw := Nat.lt_succ_of_lt h.inBuf_draw
      outBuf_draw := Nat.lt_succ_self _
      draws_differ := ⟨hdi, h.desc_draw.ne, h.inBuf_draw.ne⟩
      busy_not_done := fun hb => nomatch hb
      held_reset := fun hh => absurd (hr.symm.trans hh) Bool.false_ne_true
      code_le := hle
      error_clears := fun _ => ⟨rfl, rfl, rfl⟩
      frame_zero := fun hz => absurd hz hcode
      frame_range := Failure.errFrame_range hfits
      nframes_le := Nat.zero_le _
      len_le := Nat.zero_le _ }
  | ok r =>
    obtain ⟨hout, hlen, hn⟩ := hfits
    exact {
      desc_wf := h.desc_wf
      inBuf_wf := h.inBuf_wf
      outBuf_wf := Memory.wf_writeBytes h.outBuf_wf (by rwa [Nat.zero_add])
      desc_draw := h.desc_draw
      inBuf_draw := h.inBuf_draw
      outBuf_draw := (Memory.writeBytes_draw s.outBuf 0 r.out).symm ▸ h.outBuf_draw
      draws_differ := (Memory.writeBytes_draw s.outBuf 0 r.out).symm ▸ h.draws_differ
      busy_not_done := fun hb => nomatch hb
      held_reset := fun hh => absurd (hr.symm.trans hh) Bool.false_ne_true
      code_le := Nat.zero_le _
      error_clears := fun hz => absurd rfl hz
      frame_zero := fun _ => rfl
      frame_range := .inl (by simp [State.complete, block])
      nframes_le := (Nat.mod_le _ _).trans hn
      len_le := (Nat.mod_le _ _).trans hlen }

/-- Every host write keeps the invariant, the reset input being released (while it is asserted a write does nothing). -/
theorem WriteEffect.inv {s t : State} (e : WriteEffect s t) (h : Inv s) (hr : s.resetHeld = false) : Inv t := by
  have released {p : Prop} (hh : s.resetHeld = true) : p := absurd (hr.symm.trans hh) Bool.false_ne_true
  cases e with
  | none => exact h
  | drop _ => exact { h with held_reset := released }
  | softReset => exact h.softReset
  | setIe ie => exact { h with held_reset := released }
  | clear d w hb =>
    exact { h with
      held_reset := released
      busy_not_done := fun hb' => absurd (hb.symm.trans hb') Bool.false_ne_true }
  | accept w _ => exact { h with held_reset := released, busy_not_done := fun _ => rfl }
  | params f m sq ak sz _ => exact { h with held_reset := released }
  | desc a w strb _ =>
    have hdraw := Memory.writeWord_draw (descBytes block) s.desc a w strb
    exact { h with
      held_reset := released
      desc_wf := Memory.wf_writeWord a w strb h.desc_wf
      desc_draw := hdraw.symm ▸ h.desc_draw
      draws_differ := hdraw.symm ▸ h.draws_differ }
  | inBuf a w strb _ =>
    have hdraw := Memory.writeWord_draw block.inBufSize s.inBuf a w strb
    exact { h with
      held_reset := released
      inBuf_wf := Memory.wf_writeWord a w strb h.inBuf_wf
      inBuf_draw := hdraw.symm ▸ h.inBuf_draw
      draws_differ := hdraw.symm ▸ h.draws_differ }
  | outBuf a w strb _ =>
    have hdraw := Memory.writeWord_draw block.outBufSize s.outBuf a w strb
    exact { h with
      held_reset := released
      outBuf_wf := Memory.wf_writeWord a w strb h.outBuf_wf
      outBuf_draw := hdraw.symm ▸ h.outBuf_draw
      draws_differ := hdraw.symm ▸ h.draws_differ }

/-- With a command in flight the reset input is released: while it is asserted BUSY is 0 (70_reset_and_hazards.md R270). -/
theorem Inv.released_of_busy {s : State} (h : Inv s) (hb : s.busy = true) : s.resetHeld = false := by
  refine Bool.eq_false_of_not_eq_true fun hh => ?_
  obtain ⟨_, hidle, _⟩ := h.held_reset hh
  exact absurd (hidle.symm.trans hb) Bool.false_ne_true

/-- Whatever a step does keeps the invariant: a completion ends inside the block's bounds, a host write reaches the block
only with the reset input released, and a reset builds the invariant anew. -/
theorem StepEffect.inv {s t : State} (e : StepEffect s t) (h : Inv s) : Inv t := by
  cases e with
  | complete rest r hb hfits =>
    exact (h.of_host_update rest s.inbox s.replies (Nat.le_refl _)).complete (h.released_of_busy hb) hfits
  | write rest ops t hr e => exact e.inv (h.of_host_update rest ops s.replies (Nat.le_refl _)) hr
  | read rest ops d rs hd => exact h.of_host_update rest ops rs hd
  | hardReset rest asserted => exact inv_hardReset asserted _
  | pass rest => exact h.of_host_update rest s.inbox s.replies (Nat.le_refl _)

/-! ### Host reads -/

/-- A read of a reserved address is 0 and changes nothing (20_memory.md R62). -/
theorem hostRead_reserved {a : Addr} (s : State) (h : ReservedWord (wordAddr a)) : hostRead a s = (0, s) := by
  simp only [hostRead, (locate_reserved_iff a).2 h]

theorem hostRead_desc {s : State} {a : Addr} (hr : s.resetHeld = false)
    (h : 0x010000 ≤ wordAddr a ∧ wordAddr a < 0x012000) :
    hostRead a s = (s.desc.readWord (descBytes block) (wordAddr a - 0x010000), s) := by
  simp [hostRead, locate_desc h, hr]

theorem hostRead_inBuf {s : State} {a : Addr} (hr : s.resetHeld = false)
    (h : 0x100000 ≤ wordAddr a ∧ wordAddr a < 0x120000) :
    hostRead a s = (s.inBuf.readWord block.inBufSize (wordAddr a - 0x100000), s) := by
  simp [hostRead, locate_inBuf h, hr]

theorem hostRead_outBuf {s : State} {a : Addr} (hr : s.resetHeld = false) (hb : s.busy = false)
    (h : 0x200000 ≤ wordAddr a ∧ wordAddr a < 0x240000) :
    hostRead a s = (s.outBuf.readWord block.outBufSize (wordAddr a - 0x200000), s) := by
  simp [hostRead, locate_outBuf h, hr, hb]

/-- While BUSY = 1 a read of OUT_BUF is a free read (20_memory.md R71; log 8). -/
theorem hostRead_outBuf_busy {s : State} {a : Addr} (hb : s.busy = true)
    (h : 0x200000 ≤ wordAddr a ∧ wordAddr a < 0x240000) :
    hostRead a s = s.freeRead block.outBufSize (wordAddr a - 0x200000) := by
  simp [hostRead, locate_outBuf h, hb]

/-- OUT_BUF's window starts at 0x200000 (20_memory.md R61). -/
theorem le_of_locate_outBuf {p : Config.Params} {a : Addr} {x : Nat} (h : locate p a = .outBuf x) :
    0x200000 ≤ wordAddr a := by
  simp only [locate] at h
  split at h
  · split at h <;> cases h
  · split at h
    · cases h
    · split at h
      · cases h
      · split at h
        · exact And.left ‹_›
        · cases h

/-- d is the draw number after a read at a: at most one draw is taken, and that only in reset or while BUSY = 1 at
OUT_BUF's window or above (log 8, log 24). -/
def ReadDraws (a : Addr) (s : State) (d : Nat) : Prop :=
  d = s.draws ∨ (d = s.draws + 1 ∧ (s.resetHeld = true ∨ (s.busy = true ∧ 0x200000 ≤ wordAddr a)))

/-- A host read changes nothing but the draw number (20_memory.md R69, R71, 70_reset_and_hazards.md R270). -/
theorem hostRead_draws (a : Addr) (s : State) : ∃ d, ReadDraws a s d ∧ (hostRead a s).2 = { s with draws := d } := by
  have hkeep : ∃ d, ReadDraws a s d ∧ s = { s with draws := d } := ⟨s.draws, .inl rfl, rfl⟩
  unfold hostRead
  split
  · exact hkeep
  · split
    · exact ⟨_, .inr ⟨rfl, .inl ‹_›⟩, rfl⟩
    · exact hkeep
  · split
    · exact ⟨_, .inr ⟨rfl, .inl ‹_›⟩, rfl⟩
    · exact hkeep
  · split
    · rename_i hl hcause
      exact ⟨_, .inr ⟨rfl, hcause.imp_right fun hb => ⟨hb, le_of_locate_outBuf hl⟩⟩, rfl⟩
    · exact hkeep
  · exact hkeep

/-- Each lane of a word inside the buffer is the byte at its address (20_memory.md R63, R64). -/
theorem Memory.lane_readWord {size a i : Nat} (m : Memory) (hi : i < 4) (h : a + i < size) :
    lane (m.readWord size a) i = m.read (a + i) := by
  have hlane : lane (m.readWord size a) i = m.readLane size a i := by
    rw [Memory.readWord, lane_wordOfLanes _ _ _ _ _ hi]
    interval_cases i <;> rfl
  rw [hlane, Memory.readLane, if_pos h]

/-- The host's move takes one operation and one move off, and changes no flag or byte of the block. -/
theorem HostMoves.keeps_memories {op : HostOp} {s s' : State} (h : HostMoves op s s') :
    s'.busy = s.busy ∧ s'.desc = s.desc ∧ s'.inBuf = s.inBuf ∧ s'.outBuf = s.outBuf := by
  obtain ⟨turns, ops, _, _, rfl⟩ := h
  exact ⟨rfl, rfl, rfl, rfl⟩

/-- An RD whose read changes nothing adds its word to the replies, and nothing else (log 13). -/
theorem step_of_arriving_read {s s' : State} {a : Addr} {w : Word} (h : HostMoves (.rd a) s s')
    (hread : hostRead a s' = (w, s')) : step s = .next { s' with replies := w :: s'.replies } := by
  rw [step_of_hostMoves h, hostOp, hread]
  rfl

/-! ### Host writes -/

/-- A write to a reserved address does nothing, busy or not, in reset or not (20_memory.md R62, 10_state.md R37). -/
theorem hostWrite_reserved {a : Addr} (w : Word) (strb : BitVec 4) (s : State) (h : ReservedWord (wordAddr a)) :
    hostWrite a w strb s = .next s := by
  cases hr : s.resetHeld with
  | true => exact hostWrite_held a w strb hr
  | false => exact hostWrite_performed w strb ((locate_reserved_iff a).2 h) hr (.inr rfl)

/-- m' is m with the enabled lanes of the word at address a written, and no other byte changed (20_memory.md R63). -/
def WritesLanes (a : Nat) (w : Word) (strb : BitVec 4) (m m' : Memory) : Prop :=
  (∀ i < 4, m'.read (a + i) = if strb.getLsbD i then lane w i else m.read (a + i)) ∧
  ∀ x, (x < a ∨ a + 4 ≤ x) → m'.read x = m.read x

theorem Memory.writesLanes_writeWord {size a : Nat} (m : Memory) (w : Word) (strb : BitVec 4) (h : a + 4 ≤ size) :
    WritesLanes a w strb m (m.writeWord size a w strb) := by
  refine ⟨fun i hi => ?_, fun x hx => ?_⟩
  · have hrange : a ≤ a + i ∧ a + i < a + 4 ∧ a + i < size := by omega
    simp [Memory.read_writeWord, hi, hrange]
  · rw [Memory.read_writeWord, if_neg (by omega)]

/-- A word address inside a window that ends on a word boundary leaves room for its four bytes (20_memory.md R63). -/
theorem wordAddr_sub_add_four_le {a : Addr} {base size : Nat} (hbase : base % 4 = 0) (hsize : size % 4 = 0)
    (hlo : base ≤ wordAddr a) (hhi : wordAddr a < base + size) : wordAddr a - base + 4 ≤ size := by
  have halign : wordAddr a % 4 = 0 := by simp [wordAddr]
  omega

/-! ### What a command's outcome depends on -/

/-- What the command of a word answers (43_host_control.md R221). -/
def State.commandOutcome (w : Word) (s : State) : Except Failure Success :=
  match decodeCommand w with
  | .assemble => s.assembleOutcome block
  | .fragment => s.fragmentOutcome block
  | _ => .error ⟨.invalidCommand, none⟩

/-- Every command word completes with its outcome (10_state.md R43). -/
theorem exec_decodeCommand_eq (w : Word) (s : State) :
    exec (decodeCommand w) s = .next (s.complete (s.commandOutcome w)) := by
  unfold State.commandOutcome decodeCommand
  split
  · rfl
  · split <;> rfl

theorem Memory.readWord_congr {m m' : Memory} (h : ∀ a, m'.read a = m.read a) (size a : Nat) :
    m'.readWord size a = m.readWord size a := by
  simp only [Memory.readWord, Memory.readLane, h]

/-- A frame's fetch reads DESC and IN_BUF alone (40_frame.md R131). -/
theorem SameInBuffers.fetch_eq {s s' : State} (h : SameInBuffers s s') (p : Config.Params) : s'.fetch p = s.fetch p := by
  obtain ⟨hdesc, hin⟩ := h
  funext k
  have hd : s'.descRead p k = s.descRead p k := by
    simp only [State.descRead, Memory.readWord_congr hdesc]
  simp only [State.fetch, hd, Memory.readBytes_congr fun i _ => hin _]

/-- The parameter registers, DESC and IN_BUF decide what a command answers (10_state.md R42, 20_memory.md R70). -/
theorem commandOutcome_congr {s s' : State} (hp : SameParams s s') (hb : SameInBuffers s s') (w : Word) :
    s'.commandOutcome w = s.commandOutcome w := by
  have hfetch := hb.fetch_eq block
  obtain ⟨hn, hmtu, hseq, hack, hsize⟩ := hp
  obtain ⟨_, hin⟩ := hb
  have hpacket : s'.inBuf.readBytes 0 s.pktSize.toNat = s.inBuf.readBytes 0 s.pktSize.toNat :=
    Memory.readBytes_congr fun i _ => hin _
  unfold State.commandOutcome
  split
  · simp only [State.assembleOutcome, hn, hfetch]
  · simp only [State.fragmentOutcome, hmtu, hseq, hack, hsize, hpacket]
  · rfl

/-- ASSEMBLE's output is its packet and the four bytes before it (41_assemble.md R171, 10_state.md R34, R41). -/
theorem assembleOutcome_length {p : Config.Params} {s : State} {r : Success} (h : s.assembleOutcome p = .ok r) :
    r.out.length = r.len + 4 := by
  unfold State.assembleOutcome assembleList at h
  split at h
  · cases h
  · split at h
    · cases h
    · unfold assembleEnd at h
      split at h
      · cases h
      · cases h
        exact (length_packetBuffer _ _).trans (Nat.add_comm _ _)

/-- FRAGMENT's output is as long as its result says (10_state.md R34). -/
theorem fragmentOutcome_length {p : Config.Params} {s : State} {r : Success} (h : s.fragmentOutcome p = .ok r) :
    r.out.length = r.len := by
  unfold State.fragmentOutcome fragmentPacket at h
  split at h
  · cases h
  · split at h
    · cases h
    · split at h
      · cases h
      · split at h
        · cases h
        · cases h
          rfl

/-- A success of ASSEMBLE leaves its length and four bytes more, one of FRAGMENT its length; no other word succeeds. -/
theorem commandOutcome_length {w : Word} {s : State} {r : Success} (h : s.commandOutcome w = .ok r) :
    (w = 1 ∧ r.out.length = r.len + 4) ∨ (w ≠ 1 ∧ r.out.length = r.len) := by
  unfold State.commandOutcome decodeCommand at h
  by_cases h1 : w = 1#32
  · simp only [if_pos h1] at h
    exact .inl ⟨h1, assembleOutcome_length h⟩
  · by_cases h2 : w = 2#32
    · simp only [if_neg h1, if_pos h2] at h
      exact .inr ⟨h1, fragmentOutcome_length h⟩
    · simp only [if_neg h1, if_neg h2] at h
      cases h

/-- The output holds every byte that RES_LEN counts, and for ASSEMBLE four more (10_state.md R34, R41). -/
theorem lt_length_of_commandOutcome {w : Word} {s : State} {r : Success} {a : Nat} (h : s.commandOutcome w = .ok r)
    (ha : a < (BitVec.ofNat 32 r.len).toNat ∨ (w = 1 ∧ a < (BitVec.ofNat 32 r.len).toNat + 4)) : a < r.out.length := by
  have hcut : (BitVec.ofNat 32 r.len).toNat ≤ r.len := Nat.mod_le _ _
  rcases commandOutcome_length h with ⟨_, hlen⟩ | ⟨hne, hlen⟩
  · omega
  · have hlt := ha.resolve_right fun hw => hne hw.1
    omega

/-! ### The statements -/

/-- Settles O43, by cases on what a step can do. -/
theorem everyStepKeepsTheInvariant : Obligations.EveryStepKeepsTheInvariant :=
  fun _ _ h hstep => (stepEffect_of_step hstep).inv h

/-- Settles O11: a reserved address leads nowhere, and every operation answers a next state. -/
theorem reservedAddressesReadZeroAndIgnoreWrites : Obligations.ReservedAddressesReadZeroAndIgnoreWrites := by
  refine ⟨fun s s' a h => ⟨fun hm => ?_, fun w strb hm => ?_⟩, fun s s' op _ => ?_⟩
  · exact step_of_arriving_read hm (hostRead_reserved s' h)
  · exact (step_of_hostMoves hm).trans (hostWrite_reserved w strb s' h)
  · obtain ⟨t, hstep, _⟩ := step_effect s
    exact ⟨t, hstep⟩

/-- Settles O15: an RD and a POLL do the same read, which takes at most one draw. -/
theorem hostReadHasNoSideEffect : Obligations.HostReadHasNoSideEffect := by
  intro s s' a mask v
  obtain ⟨d, hd, hread⟩ := hostRead_draws a s'
  have hcost {op : HostOp} (hm : HostMoves op s s') : ReadDraws a s d := by
    obtain ⟨hheld, hdraws, _⟩ := hm.keeps_block
    obtain ⟨hbusy, _⟩ := hm.keeps_memories
    rwa [ReadDraws, hheld, hdraws, hbusy] at hd
  have hrd {u : State} (hm : HostMoves (.rd a) u s') :
      step u = .next { s' with replies := (hostRead a s').1 :: s'.replies, draws := d } := by
    rw [step_of_hostMoves hm, hostOp, hread]
    rfl
  have hplace : HostMoves (.rd a) { s' with sched := .host :: s'.sched, inbox := .rd a :: s'.inbox } s' :=
    ⟨s'.sched, s'.inbox, .inl rfl, rfl, rfl⟩
  refine ⟨fun hm => ⟨_, d, hcost hm, hrd hm⟩, fun hm => ⟨_, d, hcost hm, hrd hplace, ?_⟩⟩
  rw [step_of_hostMoves hm, hostOp, hread]
  split <;> rfl

/-- Settles O16: the read is a free one, and its four bytes lie in the buffer. -/
theorem outBufReadWhileBusyIsFree : Obligations.OutBufReadWhileBusyIsFree := by
  intro s s' a harr hb hlo hhi
  obtain ⟨hstep, _⟩ := step_of_arrives harr
  obtain ⟨_, hdraws, _⟩ := harr.1.keeps_block
  obtain ⟨hbusy, _⟩ := harr.1.keeps_memories
  have hfits : wordAddr a - 0x200000 + 4 ≤ block.outBufSize := wordAddr_sub_add_four_le rfl rfl hlo hhi
  rw [← hdraws]
  refine ⟨(s'.freeRead block.outBufSize (wordAddr a - 0x200000)).1, ?_, fun i hi => lane_freeRead s' hi (by omega)⟩
  rw [hstep, hostOp, hostRead_outBuf_busy (hbusy.trans hb) ⟨hlo, hhi⟩]
  rfl

/-- Settles O17: each window's read is its buffer's word, whose lanes are the bytes in order. -/
theorem bufferReadReturnsItsFourBytes : Obligations.BufferReadReturnsItsFourBytes := by
  intro s s' a harr
  obtain ⟨_, hr⟩ := step_of_arrives harr
  obtain ⟨hbusy, hdesc, hin, hout⟩ := harr.1.keeps_memories
  rw [← hbusy, ← hdesc, ← hin, ← hout]
  have hword {size base : Nat} {m : Memory} (hfits : wordAddr a - base + 4 ≤ size)
      (h : hostRead a s' = (m.readWord size (wordAddr a - base), s')) :
      step s = .next { s' with replies := (hostRead a s').1 :: s'.replies } ∧
        ∀ i < 4, lane (hostRead a s').1 i = m.read (wordAddr a - base + i) := by
    rw [h]
    exact ⟨step_of_arriving_read harr.1 h, fun i hi => m.lane_readWord hi (by omega)⟩
  exact ⟨(hostRead a s').1,
    fun hlo hhi => hword (wordAddr_sub_add_four_le rfl rfl hlo hhi) (hostRead_desc hr ⟨hlo, hhi⟩),
    fun hlo hhi => hword (wordAddr_sub_add_four_le rfl rfl hlo hhi) (hostRead_inBuf hr ⟨hlo, hhi⟩),
    fun hlo hhi hb => hword (wordAddr_sub_add_four_le rfl rfl hlo hhi) (hostRead_outBuf hr hb ⟨hlo, hhi⟩)⟩

/-- Settles O18: the write reaches the buffer of its window, and a strobed word write changes its enabled lanes alone. -/
theorem bufferWriteChangesOnlyItsEnabledLanes : Obligations.BufferWriteChangesOnlyItsEnabledLanes := by
  intro s s' a w strb harr hb
  obtain ⟨hstep, hr⟩ := step_of_arrives harr
  obtain ⟨hbusy, hdesc, hin, hout⟩ := harr.1.keeps_memories
  have hwrite {l : Loc} (hl : locate block a = l) : step s = locWrite l w strb s' :=
    hstep.trans (hostWrite_performed w strb hl hr (.inl (hbusy.trans hb)))
  rw [← hdesc, ← hin, ← hout]
  refine ⟨fun hlo hhi => ⟨_, hwrite (locate_desc ⟨hlo, hhi⟩), ?_⟩,
    fun hlo hhi => ⟨_, hwrite (locate_inBuf ⟨hlo, hhi⟩), ?_⟩,
    fun hlo hhi => ⟨_, hwrite (locate_outBuf ⟨hlo, hhi⟩), ?_⟩⟩
  · exact s'.desc.writesLanes_writeWord w strb (wordAddr_sub_add_four_le rfl rfl hlo hhi)
  · exact s'.inBuf.writesLanes_writeWord w strb (wordAddr_sub_add_four_le rfl rfl hlo hhi)
  · exact s'.outBuf.writesLanes_writeWord w strb (wordAddr_sub_add_four_le rfl rfl hlo hhi)

/-- Settles O52: both states complete with one outcome, whose output a success writes from byte 0 up. -/
theorem outcomeDependsOnTheInputsAlone : Obligations.OutcomeDependsOnTheInputsAlone := by
  intro w s s' hp hb
  have hexec' := exec_decodeCommand_eq w s'
  rw [commandOutcome_congr hp hb w] at hexec'
  refine ⟨_, _, exec_decodeCommand_eq w s, hexec', ?_⟩
  cases hout : s.commandOutcome w with
  | error e =>
    obtain ⟨hcode, _⟩ := e.kind.code_range
    exact ⟨⟨rfl, rfl, rfl, rfl, rfl⟩, fun hz => absurd hz hcode⟩
  | ok r =>
    refine ⟨⟨rfl, rfl, rfl, rfl, rfl⟩, fun _ a ha => ?_⟩
    have hlt : a < 0 + r.out.length := by
      rw [Nat.zero_add]
      exact lt_length_of_commandOutcome hout ha
    show (s'.outBuf.writeBytes 0 r.out).read a = (s.outBuf.writeBytes 0 r.out).read a
    rw [Memory.read_writeBytes, Memory.read_writeBytes, if_pos ⟨Nat.zero_le a, hlt⟩, if_pos ⟨Nat.zero_le a, hlt⟩]

end Sys2Proof.Machine
end

section
/-! PROOFS. The encoding (30_encoding.md R90 to R93, R103, R104): what a word written to CMD, to CTRL and to STATUS decodes
to, each said once, which command words INVALID's two fields spell, and the default table as its generating loop; after them
the statements. -/

namespace Sys2Proof

/-! ### Decoding, port by port -/

@[simp] theorem decode_cmd (w : Word) : decode ⟨.cmd, w⟩ = [decodeCommand w] := rfl

@[simp] theorem decode_ctrl (w : Word) : decode ⟨.ctrl, w⟩ = [decodeCtrl w] := rfl

@[simp] theorem decode_status (w : Word) : decode ⟨.status, w⟩ = decodeStatus w := rfl

/-- A word that is neither ASSEMBLE's nor FRAGMENT's is INVALID with the word's own fields (30_encoding.md R92). -/
theorem decodeCommand_of_ne {w : Word} (h₁ : w ≠ 0x00000001#32) (h₂ : w ≠ 0x00000002#32) :
    decodeCommand w = .invalid (rsvField w) (opcField w) := by
  rw [decodeCommand, if_neg h₁, if_neg h₂]

theorem decodeCtrl_of_bit_one {w : Word} (h : w.getLsbD 1 = true) : decodeCtrl w = .softReset := by
  rw [decodeCtrl, if_pos h]

theorem decodeCtrl_of_not_bit_one {w : Word} (h : w.getLsbD 1 = false) : decodeCtrl w = .setIe (w.getLsbD 0) := by
  rw [decodeCtrl, h, if_neg Bool.false_ne_true]

/-! ### Command words -/

/-- INVALID's fields are well formed exactly where they spell neither ASSEMBLE's word nor FRAGMENT's
(30_encoding.md R92). -/
theorem wellFormed_invalid_iff (rsv : BitVec 28) (opc : BitVec 4) :
    (Instr.invalid rsv opc).wellFormed = true ↔ rsv ++ opc ≠ 0x00000001#32 ∧ rsv ++ opc ≠ 0x00000002#32 := by
  have hone : rsv ++ opc = 0x00000001#32 ↔ rsv = 0 ∧ opc = 1 := append_eq_iff rsv opc 0x00000001#32
  have htwo : rsv ++ opc = 0x00000002#32 ↔ rsv = 0 ∧ opc = 2 := append_eq_iff rsv opc 0x00000002#32
  rw [Ne, Ne, hone, htwo, ← not_or, ← and_or_left]
  simp [Instr.wellFormed, imp_iff_not_or]

/-- A command word that is neither ASSEMBLE's nor FRAGMENT's decodes to its two fields. -/
theorem decodeCommand_append {rsv : BitVec 28} {opc : BitVec 4} (h : (Instr.invalid rsv opc).wellFormed = true) :
    decodeCommand (rsv ++ opc) = .invalid rsv opc := by
  obtain ⟨h₁, h₂⟩ := (wellFormed_invalid_iff rsv opc).mp h
  rw [decodeCommand_of_ne h₁ h₂, rsvField_append, opcField_append]

theorem encode_invalid_fields (w : Word) : encode (.invalid (rsvField w) (opcField w)) = ⟨.cmd, w⟩ := by
  rw [encode, append_fields]

theorem wellFormed_invalid_fields {w : Word} (h₁ : w ≠ 0x00000001#32) (h₂ : w ≠ 0x00000002#32) :
    (Instr.invalid (rsvField w) (opcField w)).wellFormed = true := by
  rw [wellFormed_invalid_iff, append_fields]
  exact ⟨h₁, h₂⟩

/-! ### CTRL and STATUS words -/

theorem decodeCtrl_eq_softReset_iff (w : Word) : decodeCtrl w = .softReset ↔ w.getLsbD 1 = true := by
  cases h : w.getLsbD 1 with
  | true => simp [decodeCtrl_of_bit_one h]
  | false => simp [decodeCtrl_of_not_bit_one h]

theorem decodeCtrl_eq_setIe_iff (w : Word) (ie : Bool) :
    decodeCtrl w = .setIe ie ↔ w.getLsbD 1 = false ∧ w.getLsbD 0 = ie := by
  cases h : w.getLsbD 1 with
  | true => simp [decodeCtrl_of_bit_one h]
  | false => simp [decodeCtrl_of_not_bit_one h]

theorem mem_decodeStatus_iff (w : Word) (i : Instr) :
    i ∈ decodeStatus w ↔ (i = .clrDone ∧ w.getLsbD 1 = true) ∨ (i = .clrWerr ∧ w.getLsbD 2 = true) := by
  simp only [decodeStatus, List.mem_append, List.mem_ite_nil_right, List.mem_singleton, and_comm]

/-! ### The statements -/

/-- Settles O1, instruction by instruction: INVALID's fields spell neither command's word, so the word decodes to them; every
other instruction's word is fixed but for IE. -/
theorem encodedInstructionDecodesBack : Obligations.EncodedInstructionDecodesBack := by
  intro i hwf
  cases i with
  | assemble => rfl
  | fragment => rfl
  | invalid rsv opc => rw [encode, decode_cmd, decodeCommand_append hwf]
  | softReset => rfl
  | setIe ie => cases ie <;> rfl
  | clrDone => rfl
  | clrWerr => rfl

/-- Settles O2: the two command words decode to their commands, every other word to its own two fields, which put together
give the word. -/
theorem commandWordIsKeptWhole : Obligations.CommandWordIsKeptWhole := by
  intro w
  by_cases h₁ : w = 0x00000001#32
  · subst h₁
    exact ⟨rfl, rfl⟩
  by_cases h₂ : w = 0x00000002#32
  · subst h₂
    exact ⟨rfl, rfl⟩
  rw [decodeCommand_of_ne h₁ h₂]
  exact ⟨encode_invalid_fields w, wellFormed_invalid_fields h₁ h₂⟩

/-- Settles O3: at each of the two ports the decoder's tests are these bits. -/
theorem ctrlAndStatusWordsDecodeByTheirBits : Obligations.CtrlAndStatusWordsDecodeByTheirBits := by
  intro w
  simp only [decode_ctrl, decode_status, List.cons.injEq, and_true]
  exact ⟨decodeCtrl_eq_softReset_iff w, decodeCtrl_eq_setIe_iff w, mem_decodeStatus_iff w⟩

/-- Settles O4: each word is its command's, has the fields written out, or has the bits its port tests. -/
theorem writtenOutWordsDecode : Obligations.WrittenOutWordsDecode := by
  have hinvalid : decodeCommand 0x00000011#32 = .invalid 1 1 := decodeCommand_of_ne (by decide) (by decide)
  have hreset : decodeCtrl 0x00000003#32 = .softReset := decodeCtrl_of_bit_one (by decide)
  have hie : decodeCtrl 0x80000001#32 = .setIe true := decodeCtrl_of_not_bit_one (by decide)
  exact ⟨rfl, rfl, congrArg ([·]) hinvalid, congrArg ([·]) hreset, congrArg ([·]) hie, rfl⟩

end Sys2Proof

namespace Sys2Proof.Machine

/-! ### The default table -/

/-- The 256 listed values are the generating loop's, row by row (30_encoding.md R104; log 9). -/
theorem fcsTableRows_eq_map : fcsTableRows = (List.range 256).map fun i => (fcsRounds 8 (BitVec.ofNat 16 i)).toNat := by
  decide +kernel

/-- An entry of the default table is eight rounds from its index (30_encoding.md R104). -/
theorem fcsTableDefault_eq_fcsRounds (i : BitVec 8) : fcsTableDefault i = fcsRounds 8 (0#8 ++ i) := by
  have hindex : BitVec.ofNat 16 i.toNat = 0#8 ++ i := by
    rw [BitVec.ofNat_toNat, BitVec.setWidth_eq_append (by decide), BitVec.cast_eq]
  have hrow : fcsTableRows.getD i.toNat 0 = (fcsRounds 8 (0#8 ++ i)).toNat := by
    rw [fcsTableRows_eq_map, ← hindex]
    simp [List.getD, i.isLt]
  rw [fcsTableDefault, hrow, BitVec.ofNat_toNat, BitVec.setWidth_eq]

/-- Settles O41: the listed rows are the loop's, and the checksum of "123456789" is read off the table byte by byte. -/
theorem defaultTableIsTheGeneratedOne : Obligations.DefaultTableIsTheGeneratedOne :=
  ⟨fcsTableDefault_eq_fcsRounds, by decide⟩

end Sys2Proof.Machine
end

section
/-! PROOFS. Frames (40_frame.md R133 to R139): what the classification mask reads, which tables give every change of one byte
another checksum, and that the default table is one of them; after them the statements. -/

namespace Sys2Proof.Machine

/-! ### The SAR code of a control word -/

/-- A control word from its fields: SAR code, ack field and sequence byte (30_encoding.md R97, R99). -/
theorem control_fields (ctrl : Half) :
    sarByte (ctrl.extractLsb' 14 2) (ctrl.extractLsb' 8 6) ++ ctrl.extractLsb' 0 8 = ctrl := by
  apply BitVec.eq_of_getLsbD_eq
  intro i hi
  simp only [sarByte, BitVec.getLsbD_append, BitVec.getLsbD_extractLsb']
  interval_cases i <;> simp

/-- This block's mask keeps a control word's bits 15:14 and clears the others (40_frame.md R134; log 10). -/
theorem and_sarClassMask (ctrl : Half) : ctrl &&& block.sarClassMask = ctrl.extractLsb' 14 2 ++ 0#14 := by
  have h := and_mask_sarByte (ctrl.extractLsb' 14 2) (ctrl.extractLsb' 8 6) (ctrl.extractLsb' 0 8)
  rwa [control_fields] at h

/-- A masked control word is a SAR code in bits 15:14 exactly where those bits are the code. -/
theorem and_sarClassMask_beq_iff (ctrl : Half) (sar : BitVec 2) :
    (ctrl &&& block.sarClassMask == sar ++ 0#14) = true ↔ ctrl.extractLsb' 14 2 = sar := by
  rw [beq_iff_eq, and_sarClassMask]
  exact BitVec.append_left_inj 0#14

/-! ### One changed byte and the checksum -/

/-- The entries of a checksum table have 256 different high bytes. -/
def HighBytesDiffer (table : BitVec 8 → BitVec 16) : Prop :=
  Function.Injective fun i => (table i).extractLsb' 8 8

theorem ushiftRight_eight (c : Half) : c >>> 8 = 0#8 ++ c.extractLsb' 8 8 := by
  rw [BitVec.ushiftRight_eq_extractLsb'_of_lt (by decide), BitVec.cast_eq]

/-- The high byte of the state after a byte is the table entry's: the old state's was shifted down. -/
theorem fcsByte_high (table : BitVec 8 → BitVec 16) (c : Half) (x : Byte) :
    (fcsByte table c x).extractLsb' 8 8 = (table (c.extractLsb' 0 8 ^^^ x)).extractLsb' 8 8 := by
  rw [fcsByte, BitVec.extractLsb'_xor, ushiftRight_eight, BitVec.extractLsb'_append_eq_left, BitVec.zero_xor]

/-- The high byte of the next state tells which entry was folded in. -/
theorem HighBytesDiffer.index_eq {table : BitVec 8 → BitVec 16} (h : HighBytesDiffer table) {c c' : Half} {x x' : Byte}
    (heq : fcsByte table c x = fcsByte table c' x') : c.extractLsb' 0 8 ^^^ x = c'.extractLsb' 0 8 ^^^ x' :=
  h (((fcsByte_high table c x).symm.trans (by rw [heq])).trans (fcsByte_high table c' x'))

theorem HighBytesDiffer.fcsByte_injective_byte {table : BitVec 8 → BitVec 16} (h : HighBytesDiffer table) (c : Half) :
    Function.Injective (fcsByte table c) :=
  fun _ _ heq => (BitVec.xor_right_inj _).mp (h.index_eq heq)

theorem HighBytesDiffer.fcsByte_injective_state {table : BitVec 8 → BitVec 16} (h : HighBytesDiffer table) (x : Byte) :
    Function.Injective (fcsByte table · x) := by
  intro c c' heq
  have hindex := h.index_eq heq
  have hlow : c.extractLsb' 0 8 = c'.extractLsb' 0 8 := (BitVec.xor_left_inj _).mp hindex
  have hhigh : c.extractLsb' 8 8 = c'.extractLsb' 8 8 := by
    simpa only [fcsByte, hindex, BitVec.xor_left_inj, ushiftRight_eight, BitVec.append_right_inj] using heq
  rw [← append_bytes_eq c, ← append_bytes_eq c', hhigh, hlow]

/-- Two states that differ still differ after the same bytes. -/
theorem HighBytesDiffer.foldl_injective {table : BitVec 8 → BitVec 16} (h : HighBytesDiffer table) (s : Bytes) :
    Function.Injective fun c => s.foldl (fcsByte table) c := by
  induction s with
  | nil => exact Function.injective_id
  | cons x xs ih => exact ih.comp (h.fcsByte_injective_state x)

/-- Changing one byte changes the state after the string, from any state before it. -/
theorem HighBytesDiffer.foldl_set_ne {table : BitVec 8 → BitVec 16} (h : HighBytesDiffer table) {s : Bytes} {i : Nat}
    {y : Byte} (hi : i < s.length) (hy : y ≠ byteAt s i) (c : Half) :
    (s.set i y).foldl (fcsByte table) c ≠ s.foldl (fcsByte table) c := by
  induction s generalizing i c with
  | nil => exact absurd hi (Nat.not_lt_zero i)
  | cons x xs ih =>
    cases i with
    | zero => exact fun heq => hy (h.fcsByte_injective_byte c (h.foldl_injective xs heq))
    | succ i => exact ih (Nat.lt_of_succ_lt_succ hi) hy (fcsByte table c x)

/-! ### The default table's checksum -/

/-- What a round folds in for the bit it shifts out (30_encoding.md R104). -/
def foldIn (bit : Bool) : Half := if bit then 0xA001#16 else 0

theorem foldIn_xor (b b' : Bool) : foldIn (b ^^ b') = foldIn b ^^^ foldIn b' := by
  cases b <;> cases b' <;> rfl

theorem fcsRound_eq_foldIn (c : Half) : fcsRound c = c >>> 1 ^^^ foldIn (c.getLsbD 0) := by
  rw [fcsRound, foldIn]
  split
  · rfl
  · exact BitVec.xor_zero.symm

theorem fcsRound_xor (c d : Half) : fcsRound (c ^^^ d) = fcsRound c ^^^ fcsRound d := by
  simp only [fcsRound_eq_foldIn, BitVec.ushiftRight_xor_distrib, BitVec.getLsbD_xor, foldIn_xor]
  ac_rfl

theorem fcsRounds_xor (n : Nat) (c d : Half) : fcsRounds n (c ^^^ d) = fcsRounds n c ^^^ fcsRounds n d := by
  induction n generalizing c d with
  | zero => rfl
  | succ n ih => rw [fcsRounds, fcsRounds, fcsRounds, fcsRound_xor, ih]

/-- The default table is linear, as its generating loop is. -/
theorem fcsTableDefault_xor (i j : Byte) : fcsTableDefault (i ^^^ j) = fcsTableDefault i ^^^ fcsTableDefault j := by
  have hindex : 0#8 ++ (i ^^^ j) = (0#8 ++ i) ^^^ (0#8 ++ j) := by
    rw [BitVec.xor_append, BitVec.xor_self]
  rw [fcsTableDefault_eq_fcsRounds, fcsTableDefault_eq_fcsRounds, fcsTableDefault_eq_fcsRounds, hindex]
  exact fcsRounds_xor 8 _ _

/-- Only entry 0 of the default table has the high byte 0. -/
theorem eq_zero_of_fcsTableDefault_high {i : Byte} (h : (fcsTableDefault i).extractLsb' 8 8 = 0) : i = 0 := by
  have hall : ∀ i : Byte, (fcsRounds 8 (0#8 ++ i)).extractLsb' 8 8 = 0 → i = 0 := by decide
  exact hall i (by rwa [← fcsTableDefault_eq_fcsRounds])

/-- Two entries with one high byte differ by an entry whose high byte is 0. -/
theorem highBytesDiffer_fcsTableDefault : HighBytesDiffer fcsTableDefault := by
  intro i j heq
  refine BitVec.xor_eq_zero_iff.mp (eq_zero_of_fcsTableDefault_high ?_)
  rw [fcsTableDefault_xor, BitVec.extractLsb'_xor]
  exact BitVec.xor_eq_zero_iff.mpr heq

/-! ### A frame with one byte changed -/

theorem byteAt_set_of_ne {s : Bytes} {i k : Nat} (y : Byte) (h : i ≠ k) : byteAt (s.set i y) k = byteAt s k := by
  rw [byteAt, byteAt, List.getD_eq_getElem?_getD, List.getD_eq_getElem?_getD, List.getElem?_set_ne h]

/-- A change below the stored checksum leaves the stored checksum as it is (40_frame.md R133). -/
theorem storedChecksum_set {f : Bytes} {i : Nat} (y : Byte) (hi : i < f.length - 2) :
    storedChecksum (f.set i y) = storedChecksum f := by
  rw [storedChecksum, storedChecksum, List.length_set, le16, le16, byteAt_set_of_ne y (by omega),
    byteAt_set_of_ne y (by omega)]

theorem coveredBytes_set (f : Bytes) (i : Nat) (y : Byte) : coveredBytes (f.set i y) = (coveredBytes f).set i y := by
  rw [coveredBytes, coveredBytes, List.length_set, List.take_set]

theorem byteAt_coveredBytes {f : Bytes} {i : Nat} (hi : i < f.length - 2) : byteAt (coveredBytes f) i = byteAt f i := by
  simp [byteAt, coveredBytes, List.getElem?_take_of_lt hi]

/-- A changed covered byte fails the checksum check under every table whose entries differ in their high bytes. -/
theorem HighBytesDiffer.checksumOk_set {p : Config.Params} (h : HighBytesDiffer p.fcsTable) {f : Bytes} {i : Nat} {y : Byte}
    (hi : i < f.length - 2) (hy : y ≠ byteAt f i) (hok : checksumOk p f = true) : checksumOk p (f.set i y) = false := by
  have hlen : i < (coveredBytes f).length := by
    rw [coveredBytes, List.length_take]
    omega
  have hne : fcs p.fcsTable ((coveredBytes f).set i y) ≠ fcs p.fcsTable (coveredBytes f) :=
    h.foldl_set_ne hlen (by rwa [byteAt_coveredBytes hi]) 0
  rw [checksumOk, beq_iff_eq] at hok
  rw [checksumOk, storedChecksum_set y hi, coveredBytes_set, hok, beq_eq_false_iff_ne]
  exact hne.symm

/-- Flipping a bit of a byte changes the byte. -/
theorem xor_twoPow_ne {b : Nat} (x : Byte) (hb : b < 8) : x ^^^ BitVec.twoPow 8 b ≠ x := by
  intro h
  have hbit := congrArg (BitVec.getLsbD · b) h
  simp [hb] at hbit

/-! ### The statements -/

/-- Settles O39: the prefix counts the header and the payload, and the checksum is stored over all that stands before it. -/
theorem builtFramePassesItsOwnChecks : Obligations.BuiltFramePassesItsOwnChecks := by
  intro p cid sb ab tl pay hfit
  have hlen : (build p cid sb ab tl pay).length - 4 = builtHeaderLength tl + pay.length := by
    rw [length_build]
    omega
  refine ⟨?_, ?_, ?_⟩
  · have hprefix := lengthPrefix_build p cid sb ab tl pay
    rw [lengthPrefix] at hprefix
    rw [hprefix, BitVec.toNat_ofNat, ← hlen]
    exact Nat.mod_eq_of_lt (by omega)
  · exact eq_of_beq (checksumOk_build p cid sb ab tl pay)
  · rw [sarCode, byteAt_five_build]

/-- Settles O40: the default table's entries differ in their high bytes, so no single changed byte passes. -/
theorem singleBitErrorBreaksTheChecksum : Obligations.SingleBitErrorBreaksTheChecksum :=
  have h : HighBytesDiffer block.fcsTable := highBytesDiffer_fcsTableDefault
  fun f i _ hi hb hok => h.checksumOk_set hi (xor_twoPow_ne (byteAt f i) hb) hok

/-- Settles O42: each of the three values compared with is a SAR code in bits 15:14. -/
theorem classificationReadsTheSarCodeAlone : Obligations.ClassificationReadsTheSarCodeAlone :=
  fun ctrl => ⟨and_sarClassMask_beq_iff ctrl 0b00, and_sarClassMask_beq_iff ctrl 0b01, and_sarClassMask_beq_iff ctrl 0b10⟩

end Sys2Proof.Machine
end

section
/-! PROOFS. ASSEMBLE (41_assemble.md): what each check on the frame list answers, what the end of the loop answers, and
what the whole command answers where a check fails and where all pass; after them the statements. -/

namespace Sys2Proof.Machine

/-! ### The two ends of a command -/

/-- The kind's code is R240's number, and a frame index below 0x10000 is kept whole (60_exceptions.md R242, R243). -/
theorem failedWith_completeFail (e : Failure) (s : State) : FailedWith e s (s.completeFail e) := by
  have hcode : (s.completeFail e).errCode = e.kind.code := rfl
  refine ⟨?_, fun h => ?_, fun k h hk => ?_, rfl, rfl, rfl, fun _ => rfl, rfl, rfl, rfl,
    commandFrame_complete s (.error e)⟩
  · rw [hcode]
    cases e.kind <;> rfl
  · exact congrArg BitVec.toNat (Failure.errFrame_of_none h)
  · exact Failure.errFrame_of_some h (by omega)

/-- The output region is read back byte by byte, and every byte above it is as before (60_exceptions.md R244). -/
theorem succeededWith_completeOk (r : Success) (s : State) :
    SucceededWith r.cid r.len r.nframes r.out s (s.completeOk r) := by
  have hread (a : Nat) : (s.completeOk r).outBuf.read a = if a < r.out.length then r.out.getD a 0 else s.outBuf.read a := by
    rw [State.completeOk_outBuf, Memory.read_writeBytes]
    simp
  refine ⟨rfl, rfl, rfl, rfl, rfl, fun i hi => ?_, fun a ha => ?_, rfl, rfl, rfl, commandFrame_complete s (.ok r)⟩
  · rw [hread, if_pos hi, List.getD_eq_getElem _ _ hi]
  · rw [hread, if_neg (by omega)]

/-- ERR_CODE is 0 after a completion exactly where the command succeeded (60_exceptions.md R240, R244). -/
theorem State.complete_errCode_eq_zero_iff (s : State) (r : Except Failure Success) :
    (s.complete r).errCode = 0 ↔ ∃ x, r = .ok x := by
  cases r with
  | ok x => exact iff_of_true rfl ⟨x, rfl⟩
  | error e =>
    obtain ⟨hcode, _⟩ := e.kind.code_range
    exact iff_of_false hcode (by simp)

theorem exec_assemble (s : State) : exec .assemble s = .next (s.complete (s.assembleOutcome block)) := rfl

/-- A failing outcome of ASSEMBLE is what the host then finds (60_exceptions.md R243). -/
theorem exec_assemble_of_error {s : State} {e : Failure} (h : s.assembleOutcome block = .error e) :
    ∃ t, exec .assemble s = .next t ∧ FailedWith e s t :=
  ⟨s.completeFail e, by rw [exec_assemble, h]; rfl, failedWith_completeFail e s⟩

/-- A success of ASSEMBLE writes its output from byte 0 up and its results (60_exceptions.md R244). -/
theorem exec_assemble_of_ok {s : State} {r : Success} (h : s.assembleOutcome block = .ok r) :
    ∃ t, exec .assemble s = .next t ∧ SucceededWith r.cid r.len r.nframes r.out s t :=
  ⟨s.completeOk r, by rw [exec_assemble, h]; rfl, succeededWith_completeOk r s⟩

/-! ### The checks on the list -/

section
variable {p : Config.Params} {nf : Nat} {fetch : Nat → Except Failure Bytes} {fr : Nat → Bytes} {f : Bytes} {e : Failure}

theorem listError_of_empty (h : nf = 0) : listError p nf fetch = some ⟨.empty, none⟩ := if_pos h

theorem listError_of_too_long (h : p.maxFrames < nf) : listError p nf fetch = some ⟨.capacity, none⟩ := by
  rw [listError, if_neg (by omega), if_pos h]

theorem listError_of_fetch_error (hmax : nf ≤ p.maxFrames) (h1 : nf = 1) (hf : fetch 0 = .error e) :
    listError p nf fetch = some e := by
  rw [listError, if_neg (by omega), if_neg (by omega), if_pos h1, hf]

theorem listError_of_short (hmax : nf ≤ p.maxFrames) (h1 : nf = 1) (hf : fetch 0 = .ok f) (h : f.length < 6) :
    listError p nf fetch = some ⟨.lengthMismatch, some 0⟩ := by
  rw [listError, if_neg (by omega), if_neg (by omega), if_pos h1, hf]
  exact if_pos h

theorem listError_of_segmented (hmax : nf ≤ p.maxFrames) (h1 : nf = 1) (hf : fetch 0 = .ok f) (h6 : 6 ≤ f.length)
    (h : isUnsegmented p (controls f) = false) : listError p nf fetch = some ⟨.badSegmentation, some 0⟩ := by
  rw [listError, if_neg (by omega), if_neg (by omega), if_pos h1, hf]
  exact (if_neg (by omega)).trans (if_pos h)

theorem isUnsegmented_iff (p : Config.Params) (f : Bytes) :
    isUnsegmented p (controls f) = true ↔ le16 f 4 &&& p.sarClassMask = 0x0000#16 := beq_iff_eq

/-- A list that passes the checks on it is neither empty nor too long, and a lone frame passes the step-2 check: every other
list has its error (41_assemble.md R161). -/
theorem of_listError_eq_none (hfetch : ∀ k f, fetch k = .ok f → f = fr k) (h : listError p nf fetch = none) :
    nf ≠ 0 ∧ nf ≤ p.maxFrames ∧ SingleFrameOk p nf fr := by
  have hne (e : Failure) : listError p nf fetch ≠ some e := by simp [h]
  have hmax : nf ≤ p.maxFrames := by
    by_contra hlong
    exact hne _ (listError_of_too_long (by omega))
  refine ⟨fun h0 => hne _ (listError_of_empty h0), hmax, fun h1 => ?_⟩
  cases hf : fetch 0 with
  | error e => exact absurd (listError_of_fetch_error hmax h1 hf) (hne e)
  | ok f =>
    obtain rfl := hfetch 0 f hf
    have h6 : 6 ≤ (fr 0).length := by
      by_contra hshort
      exact hne _ (listError_of_short hmax h1 hf (by omega))
    refine ⟨h6, (isUnsegmented_iff p (fr 0)).mp ?_⟩
    by_contra hseg
    exact hne _ (listError_of_segmented hmax h1 hf h6 (by simpa using hseg))

/-! ### The whole list -/

theorem assembleList_of_listError (h : listError p nf fetch = some e) : assembleList p nf fetch = .error e := by
  rw [assembleList, h]

theorem assembleList_of_loop_error (hlist : listError p nf fetch = none)
    (h : assembleLoop p nf fetch nf 0 AsmLocals.start = .error e) : assembleList p nf fetch = .error e := by
  simp only [assembleList, hlist, h]

theorem localsAt_total (h : 1 < nf) : (localsAt nf fr nf).total = le16 (fr 0) 6 := if_neg (by omega)

theorem localsAt_cid (h : nf ≠ 0) : (localsAt nf fr nf).cid = le16 (fr 0) 2 := if_neg h

/-- Payloads that do not add up to frame 0's total length are a mismatch (41_assemble.md R170). -/
theorem assembleEnd_of_total_ne (h1 : 1 < nf) (h : (gathered nf fr nf).length ≠ (le16 (fr 0) 6).toNat) :
    assembleEnd nf (localsAt nf fr nf) = .error ⟨.totalLengthMismatch, none⟩ := by
  rw [assembleEnd, localsAt_total h1]
  exact if_pos ⟨h1, h⟩

/-- Payloads that do add up, or that of a lone frame, are the packet (41_assemble.md R170, R171). -/
theorem assembleEnd_of_total_eq (h0 : nf ≠ 0) (h : 1 < nf → (gathered nf fr nf).length = (le16 (fr 0) 6).toNat) :
    assembleEnd nf (localsAt nf fr nf) =
      .ok ⟨le16 (fr 0) 2, (gathered nf fr nf).length, nf, packetBuffer (le16 (fr 0) 2) (gathered nf fr nf)⟩ := by
  rw [assembleEnd, localsAt_cid h0, if_neg]
  · rfl
  · rintro ⟨h1, hne⟩
    rw [localsAt_total h1] at hne
    exact hne (h h1)

/-- A lone frame's payload is shorter than its length prefix says (41_assemble.md R164). -/
theorem length_gathered_lone_le (h : LengthOk 1 fr 0) : (gathered 1 fr 1).length ≤ 65535 := by
  obtain ⟨_, hprefix⟩ := h
  have hlt := (le16 (fr 0) 0).isLt
  have hpay : (gathered 1 fr 1).length = min ((fr 0).length - 2 - 6) ((fr 0).length - 6) := length_slice (fr 0) 6 _
  omega

end

/-! ### The whole command -/

theorem State.eq_frameBytes_of_fetch (s : State) (k : Nat) (f : Bytes) (h : s.fetch block k = .ok f) :
    f = s.frameBytes k := by
  rcases s.fetch_eq k with hk | hk <;> rw [hk] at h <;> cases h
  rfl

theorem State.frameInside_of_fetch {s : State} {k : Nat} {f : Bytes} (h : s.fetch block k = .ok f) : s.frameInside k := by
  by_contra hk
  rw [State.fetch_of_not_inside hk] at h
  cases h

/-- A list check that fails is the command's failure (41_assemble.md R161). -/
theorem exec_assemble_of_listError {s : State} {e : Failure}
    (h : listError block s.asmNframes.toNat (s.fetch block) = some e) :
    ∃ t, exec .assemble s = .next t ∧ FailedWith e s t :=
  exec_assemble_of_error (assembleList_of_listError h)

/-- The first frame outside IN_BUF is reported: a lone one by the checks on the list, any other by the loop
(41_assemble.md R161, R162). -/
theorem assembleOutcome_of_not_inside {s : State} {k : Nat} (hmax : s.asmNframes.toNat ≤ block.maxFrames)
    (hk : k < s.asmNframes.toNat)
    (hbefore : ∀ j < k, s.frameInside j ∧ FramePasses block s.asmNframes.toNat s.frameBytes j)
    (hin : ¬ s.frameInside k) :
    s.assembleOutcome block = .error ⟨.capacity, some k⟩ := by
  by_cases h1 : s.asmNframes.toNat = 1
  · obtain rfl : k = 0 := by omega
    exact assembleList_of_listError (listError_of_fetch_error hmax h1 (State.fetch_of_not_inside hin))
  · have hlist : listError block s.asmNframes.toNat (s.fetch block) = none :=
      listError_eq_none (fr := s.frameBytes) (by omega) hmax (fun h => absurd h h1) (fun h => absurd h h1)
    exact assembleList_of_loop_error hlist (assembleLoop_of_fetch_error hk
      (fun j hj => State.fetch_of_inside (hbefore j hj).1) (fun j hj => (hbefore j hj).2) (State.fetch_of_not_inside hin))

/-- The first frame that fails a check is reported with that check (41_assemble.md R172). -/
theorem assembleOutcome_of_fails {s : State} {k : Nat} {kind : ErrKind} (hmax : s.asmNframes.toNat ≤ block.maxFrames)
    (hk : k < s.asmNframes.toNat) (hs : SingleFrameOk block s.asmNframes.toNat s.frameBytes)
    (hbefore : ∀ j < k, s.frameInside j ∧ FramePasses block s.asmNframes.toNat s.frameBytes j) (hin : s.frameInside k)
    (hfail : FrameFails block s.asmNframes.toNat s.frameBytes k kind) :
    s.assembleOutcome block = .error ⟨kind, some k⟩ := by
  have hfetch : ∀ j ≤ k, s.fetch block j = .ok (s.frameBytes j) := fun j hj => by
    rcases Nat.lt_or_eq_of_le hj with hlt | rfl
    · exact State.fetch_of_inside (hbefore j hlt).1
    · exact State.fetch_of_inside hin
  have hlist : listError block s.asmNframes.toNat (s.fetch block) = none :=
    listError_eq_none (by omega) hmax (fun _ => hfetch 0 (Nat.zero_le k)) hs
  exact assembleList_of_loop_error hlist (assembleLoop_of_fails hk hfetch (fun j hj => (hbefore j hj).2) hfail)

/-- Frames that all pass leave the total-length check (41_assemble.md R170). -/
theorem assembleOutcome_of_pass {s : State} (h0 : s.asmNframes.toNat ≠ 0) (hmax : s.asmNframes.toNat ≤ block.maxFrames)
    (hs : SingleFrameOk block s.asmNframes.toNat s.frameBytes)
    (hall : ∀ k < s.asmNframes.toNat, s.frameInside k ∧ FramePasses block s.asmNframes.toNat s.frameBytes k) :
    s.assembleOutcome block =
      assembleEnd s.asmNframes.toNat (localsAt s.asmNframes.toNat s.frameBytes s.asmNframes.toNat) :=
  assembleList_of_pass h0 hmax (fun k hk => State.fetch_of_inside (hall k hk).1) hs (fun k hk => (hall k hk).2)

/-- Where every check passes the outcome is the packet (41_assemble.md R171). -/
theorem AssembleAccepts.assembleOutcome_eq {s : State} (h : AssembleAccepts s) :
    s.assembleOutcome block = .ok ⟨le16 (s.frameBytes 0) 2,
      (gathered s.asmNframes.toNat s.frameBytes s.asmNframes.toNat).length, s.asmNframes.toNat,
      packetBuffer (le16 (s.frameBytes 0) 2) (gathered s.asmNframes.toNat s.frameBytes s.asmNframes.toNat)⟩ :=
  (assembleOutcome_of_pass h.nonempty h.count h.single fun k hk => ⟨h.inside k hk, h.passes k hk⟩).trans
    (assembleEnd_of_total_eq h.nonempty h.total)

/-- Only where every check passes is there a packet: each check that fails is an error (41_assemble.md R160). -/
theorem assembleAccepts_of_ok {s : State} {r : Success} (h : s.assembleOutcome block = .ok r) : AssembleAccepts s := by
  have hne (e : Failure) : s.assembleOutcome block ≠ .error e := by simp [h]
  have hlist : listError block s.asmNframes.toNat (s.fetch block) = none := by
    cases hl : listError block s.asmNframes.toNat (s.fetch block) with
    | none => rfl
    | some e => exact absurd (assembleList_of_listError hl) (hne e)
  obtain ⟨h0, hmax, hs⟩ := of_listError_eq_none s.eq_frameBytes_of_fetch hlist
  rcases assembleLoop_cases block s.asmNframes.toNat (s.fetch block) s.frameBytes s.asmNframes.toNat
      s.eq_frameBytes_of_fetch with ⟨hall, _⟩ | ⟨_, _, e, _, _, hloop⟩ | ⟨_, _, kind, _, _, _, hloop⟩
  · have hpass : ∀ k < s.asmNframes.toNat, s.frameInside k ∧ FramePasses block s.asmNframes.toNat s.frameBytes k :=
      fun k hk => ⟨State.frameInside_of_fetch (hall k hk).1, (hall k hk).2⟩
    refine ⟨h0, hmax, fun k hk => (hpass k hk).1, hs, fun k hk => (hpass k hk).2, fun h1 => ?_⟩
    by_contra htotal
    exact hne _ ((assembleOutcome_of_pass h0 hmax hs hpass).trans (assembleEnd_of_total_ne h1 htotal))
  · exact absurd (assembleList_of_loop_error hlist hloop) (hne e)
  · exact absurd (assembleList_of_loop_error hlist hloop) (hne _)

theorem assembleOutcome_ok_iff (s : State) : (∃ r, s.assembleOutcome block = .ok r) ↔ AssembleAccepts s :=
  ⟨fun ⟨_, h⟩ => assembleAccepts_of_ok h, fun h => ⟨_, h.assembleOutcome_eq⟩⟩

/-- An accepted packet's length fits its 16-bit field (41_assemble.md R171): it is frame 0's total length, or below the
lone frame's length prefix. -/
theorem AssembleAccepts.length_le {s : State} (h : AssembleAccepts s) :
    (gathered s.asmNframes.toNat s.frameBytes s.asmNframes.toNat).length ≤ 65535 := by
  have h0 := h.nonempty
  by_cases h1 : s.asmNframes.toNat = 1
  · have hlength := (h.passes 0 (by omega)).length
    rw [h1] at hlength ⊢
    exact length_gathered_lone_le hlength
  · rw [h.total (by omega)]
    exact Nat.le_of_lt_succ (le16 (s.frameBytes 0) 6).isLt

/-- The SAR code is the two high bits of the control word (30_encoding.md R97, R99). -/
theorem extractLsb'_controls (f : Bytes) : (controls f).extractLsb' 14 2 = sarCode f := by
  apply BitVec.eq_of_getLsbD_eq
  intro i hi
  rw [controls, le16, sarCode, BitVec.getLsbD_extractLsb', BitVec.getLsbD_extractLsb', BitVec.getLsbD_append,
    if_neg (by omega), show 14 + i - 8 = 6 + i by omega]

theorem isUnsegmented_iff_sarCode (f : Bytes) : isUnsegmented block (controls f) = true ↔ sarCode f = 0b00#2 := by
  obtain ⟨hunseg, _, _⟩ := classificationReadsTheSarCodeAlone (controls f)
  rwa [extractLsb'_controls] at hunseg

/-! ### The statements -/

/-- Settles O25: the checks on the list pass, or a lone frame's fetch fails there, and the loop stops at frame k. -/
theorem assembleReportsTheFirstFailure : Obligations.AssembleReportsTheFirstFailure := by
  rintro s k kind hmax hk hs hbefore (⟨hin, rfl⟩ | ⟨hin, hfail⟩)
  · exact exec_assemble_of_error (assembleOutcome_of_not_inside hmax hk hbefore hin)
  · exact exec_assemble_of_error (assembleOutcome_of_fails hmax hk hs hbefore hin hfail)

/-- Settles O24, clause by clause; the last is the loop's, since the list checks pass an unsegmented frame of 6 bytes. -/
theorem assembleChecksTheListFirst : Obligations.AssembleChecksTheListFirst := by
  intro s
  have hmax (h1 : s.asmNframes.toNat = 1) : s.asmNframes.toNat ≤ block.maxFrames := by
    rw [h1]
    decide
  refine ⟨fun h0 => ?_, fun hlong => ?_, fun h1 hin => ?_, fun h1 hin h6 => ?_, fun h1 hin h6 hsar => ?_,
    fun h1 hin h6 h8 hsar => ?_⟩
  · exact exec_assemble_of_listError (listError_of_empty h0)
  · exact exec_assemble_of_listError (listError_of_too_long hlong)
  · exact exec_assemble_of_listError (listError_of_fetch_error (hmax h1) h1 (State.fetch_of_not_inside hin))
  · exact exec_assemble_of_listError (listError_of_short (hmax h1) h1 (State.fetch_of_inside hin) h6)
  · have hseg : isUnsegmented block (controls (s.frameBytes 0)) = false :=
      Bool.eq_false_iff.mpr fun h => hsar ((isUnsegmented_iff_sarCode _).mp h)
    exact exec_assemble_of_listError (listError_of_segmented (hmax h1) h1 (State.fetch_of_inside hin) h6 hseg)
  · have hs : SingleFrameOk block s.asmNframes.toNat s.frameBytes := fun _ =>
      ⟨h6, (isUnsegmented_iff block _).mp ((isUnsegmented_iff_sarCode _).mpr hsar)⟩
    have hshort : ¬ LengthOk s.asmNframes.toNat s.frameBytes 0 := by
      rintro ⟨hmin, _⟩
      rw [if_neg (by omega)] at hmin
      omega
    exact exec_assemble_of_error (assembleOutcome_of_fails (hmax h1) (by omega) hs
      (fun j hj => absurd hj (Nat.not_lt_zero j)) hin (.length hshort))

/-- Settles O26: the loop passes every frame, and its end compares the lengths. -/
theorem assembleChecksTheTotalLast : Obligations.AssembleChecksTheTotalLast := by
  intro s h1 hmax hall htotal
  have hs : SingleFrameOk block s.asmNframes.toNat s.frameBytes := fun h => absurd h (by omega)
  exact exec_assemble_of_error
    ((assembleOutcome_of_pass (by omega) hmax hs hall).trans (assembleEnd_of_total_ne h1 htotal))

/-- Settles O22: the outcome is the packet, and a success writes its output from byte 0 up. -/
theorem assembleWritesThePacket : Obligations.AssembleWritesThePacket := by
  intro s h
  obtain ⟨t, hexec, hok⟩ := exec_assemble_of_ok h.assembleOutcome_eq
  exact ⟨t, hexec, hok, h.length_le⟩

/-- Settles O23: the code is 0 where the outcome is a packet, which is where every check passes. -/
theorem assembleSucceedsExactlyWhenEveryCheckPasses : Obligations.AssembleSucceedsExactlyWhenEveryCheckPasses := by
  intro s t h
  cases h
  exact (s.complete_errCode_eq_zero_iff _).trans (assembleOutcome_ok_iff s)

end Sys2Proof.Machine
end

section
/-! PROOFS. FRAGMENT (42_fragment.md): what it answers for every packet buffer and MTU, what each frame it emits holds and how
the frames are found again in OUT_BUF; after them the statements. -/

namespace Sys2Proof.Machine

/-! ### The packet buffer -/

/-- The packet buffer holds its header and records its payload size (42_fragment.md R191). -/
def RecordsLength (pk : Bytes) : Prop := 4 ≤ pk.length ∧ (recordedLength pk).toNat = pk.length - 4

/-- The two bytes a 16-bit field was read from. -/
theorem bytesLE16_le16 (b : Bytes) (i : Nat) : bytesLE16 (le16 b i) = [byteAt b i, byteAt b (i + 1)] := by
  have hlow : (le16 b i).extractLsb' 0 8 = byteAt b i := BitVec.extractLsb'_append_eq_right
  have hhigh : (le16 b i).extractLsb' 8 8 = byteAt b (i + 1) := BitVec.extractLsb'_append_eq_left
  rw [bytesLE16, hlow, hhigh]

theorem RecordsLength.payload_le {pk : Bytes} (h : RecordsLength pk) : (pk.drop 4).length ≤ 65535 := by
  obtain ⟨_, hrec⟩ := h
  have := (recordedLength pk).isLt
  rw [List.length_drop]
  omega

/-- A packet buffer is its recorded length, its channel id and its payload (30_encoding.md R100). -/
theorem RecordsLength.packetBuffer_eq {pk : Bytes} (h : RecordsLength pk) : packetBuffer (packetCid pk) (pk.drop 4) = pk := by
  obtain ⟨h4, hrec⟩ := h
  have hlen : BitVec.ofNat 16 (pk.drop 4).length = recordedLength pk := by
    rw [List.length_drop, ← hrec, BitVec.ofNat_toNat, BitVec.setWidth_eq]
  rw [packetBuffer, hlen, recordedLength, packetCid, bytesLE16_le16, bytesLE16_le16]
  match pk, h4 with
  | _ :: _ :: _ :: _ :: _, _ => rfl

theorem State.length_packetBytes (s : State) : s.packetBytes.length = s.pktSize.toNat := Memory.length_readBytes _ _ _

theorem State.packetLegal_iff (s : State) : s.packetLegal ↔ s.pktSize.toNat ≤ 0x20000 ∧ RecordsLength s.packetBytes := by
  rw [RecordsLength, s.length_packetBytes]
  rfl

theorem State.byteAt_packetBytes {s : State} {i : Nat} (h : i < s.pktSize.toNat) : byteAt s.packetBytes i = s.inBuf.read i := by
  rw [byteAt, List.getD_eq_getElem _ _ (by rwa [s.length_packetBytes])]
  exact (Memory.getElem_readBytes _ _ _ _ _).trans (by rw [Nat.zero_add])

theorem slice_drop (b : Bytes) (k i j : Nat) : slice (b.drop k) i j = slice b (k + i) (k + j) := by
  rw [slice, slice, List.drop_drop, Nat.add_sub_add_left]

theorem Memory.drop_readBytes (m : Memory) (a n k : Nat) : (m.readBytes a n).drop k = m.readBytes (a + k) (n - k) := by
  apply List.ext_getElem (by simp)
  intro i h1 h2
  rw [List.getElem_drop, Memory.getElem_readBytes, Memory.getElem_readBytes, Nat.add_assoc]

/-! ### The frames of a payload -/

section
variable {p : Config.Params} {a : FragArgs} {pay : Bytes} {m : Nat}

/-- The frame of a payload that fits one frame (42_fragment.md R195), and, where EMPTY_ACK_FN is this block's, of an empty one
(R194). -/
def loneFrame (p : Config.Params) (a : FragArgs) (pay : Bytes) : Bytes :=
  build p a.cid a.seq (sarByte sarUnsegmented a.ackLow) none pay

theorem length_loneFrame (p : Config.Params) (a : FragArgs) (pay : Bytes) : (loneFrame p a pay).length = pay.length + 8 :=
  (length_build ..).trans (Nat.add_comm _ _)

/-- The frames of a multi-frame set, in order (42_fragment.md R198). -/
def setFrames (p : Config.Params) (a : FragArgs) (sp : Split) (pay : Bytes) : List Bytes :=
  (List.range sp.n).map (setFrameAt p a sp pay)

@[simp] theorem length_setFrames (p : Config.Params) (a : FragArgs) (sp : Split) (pay : Bytes) :
    (setFrames p a sp pay).length = sp.n := by simp [setFrames]

@[simp] theorem getElem_setFrames (sp : Split) (i : Nat) (h : i < (setFrames p a sp pay).length) :
    (setFrames p a sp pay)[i] = setFrameAt p a sp pay i := by simp [setFrames]

theorem getElem?_setFrames (sp : Split) (i : Nat) (h : i < sp.n) :
    (setFrames p a sp pay)[i]? = some (setFrameAt p a sp pay i) := by simp [setFrames, h]

/-- An MTU below 8, or below 11 where the payload needs a set, makes no progress (42_fragment.md R193). -/
theorem fragmentFrames_of_small_mtu (hm : m < 11) (h : m < pay.length + 8) :
    fragmentFrames p a pay m = .error ⟨.malformed, none⟩ := by
  by_cases h8 : m < 8
  · exact if_pos h8
  · rw [fragmentFrames, if_neg h8, if_neg (by omega), if_neg (by omega), if_pos hm]

theorem fragmentFrames_of_fits (hack : p.emptyAck = emptyAckLow) (h : pay.length + 8 ≤ m) :
    fragmentFrames p a pay m = .ok [loneFrame p a pay] := by
  rw [fragmentFrames, if_neg (by omega)]
  by_cases h0 : pay.length = 0
  · rw [if_pos h0, hack, loneFrame, List.length_eq_zero_iff.mp h0]
    rfl
  · rw [if_neg h0, if_pos (by omega)]
    rfl

theorem fragmentFrames_of_longer (hm : 11 ≤ m) (h : m < pay.length + 8) :
    fragmentFrames p a pay m = if (splitOf pay.length m).totalSize m > p.outBufSize then .error ⟨.capacity, none⟩
      else .ok (setFrames p a (splitOf pay.length m) pay) := by
  rw [fragmentFrames, if_neg (by omega), if_neg (by omega), if_neg (by omega), if_neg (by omega), fragmentLoop_eq, setFrames]

/-- This block's OUT_BUF holds every set (42_fragment.md R199). -/
theorem fragmentFrames_block_of_longer (hpay : pay.length ≤ 65535) (hm : 11 ≤ m) (h : m < pay.length + 8) :
    fragmentFrames block a pay m = .ok (setFrames block a (splitOf pay.length m) pay) := by
  have hfit := splitOf_fits (len := pay.length) hm (by omega)
  have hn := hfit.n_le hpay
  have hbuf : block.outBufSize = 262144 := rfl
  rw [fragmentFrames_of_longer hm h, hfit.totalSize_eq, if_neg (by omega)]

/-- Everything FRAGMENT can emit: one frame, or a set. -/
theorem fragmentFrames_ok_cases {frames : List Bytes} (hack : p.emptyAck = emptyAckLow)
    (h : fragmentFrames p a pay m = .ok frames) :
    (pay.length + 8 ≤ m ∧ frames = [loneFrame p a pay]) ∨
    (11 ≤ m ∧ m < pay.length + 8 ∧ frames = setFrames p a (splitOf pay.length m) pay) := by
  by_cases hfit : pay.length + 8 ≤ m
  · rw [fragmentFrames_of_fits hack hfit] at h
    cases h
    exact .inl ⟨hfit, rfl⟩
  · have hlong : m < pay.length + 8 := by omega
    by_cases hm : m < 11
    · rw [fragmentFrames_of_small_mtu hm hlong] at h
      cases h
    · rw [fragmentFrames_of_longer (by omega) hlong] at h
      split at h <;> cases h
      exact .inr ⟨by omega, hlong, rfl⟩

end

/-! ### The whole command -/

/-- The results of FRAGMENT that emits these frames (42_fragment.md R200). -/
def emission (cid : Half) (frames : List Bytes) : Success := ⟨cid, frames.flatten.length, frames.length, frames.flatten⟩

@[simp] theorem emission_nframes (cid : Half) (frames : List Bytes) : (emission cid frames).nframes = frames.length := rfl

theorem fragmentPacket_of_not_records {p : Config.Params} {pk : Bytes} {m : Nat} {seq ack : Byte} (h : ¬ RecordsLength pk) :
    fragmentPacket p pk m seq ack = .error ⟨.malformed, none⟩ := by
  by_cases h4 : pk.length < 4
  · exact if_pos h4
  · rw [fragmentPacket, if_neg h4, if_pos fun hrec => h ⟨by omega, hrec⟩]

theorem fragmentPacket_of_records {p : Config.Params} {pk : Bytes} {m : Nat} {seq ack : Byte} (h : RecordsLength pk) :
    fragmentPacket p pk m seq ack =
      (fragmentFrames p ⟨packetCid pk, seq, ack⟩ (pk.drop 4) m).map (emission (packetCid pk)) := by
  obtain ⟨h4, hrec⟩ := h
  rw [fragmentPacket, if_neg (by omega), if_neg (not_not_intro hrec)]
  cases fragmentFrames p ⟨packetCid pk, seq, ack⟩ (pk.drop 4) m <;> rfl

/-- Everything FRAGMENT can answer to a packet buffer but a refusal: the one frame of its payload, or the set. -/
theorem fragmentPacket_ok_cases {p : Config.Params} {pk : Bytes} {m : Nat} {seq ack : Byte} {r : Success}
    (hack : p.emptyAck = emptyAckLow) (h : fragmentPacket p pk m seq ack = .ok r) :
    ∃ frames, r = emission (packetCid pk) frames ∧
      (((pk.drop 4).length + 8 ≤ m ∧ frames = [loneFrame p ⟨packetCid pk, seq, ack⟩ (pk.drop 4)]) ∨
      (11 ≤ m ∧ m < (pk.drop 4).length + 8 ∧
        frames = setFrames p ⟨packetCid pk, seq, ack⟩ (splitOf (pk.drop 4).length m) (pk.drop 4))) := by
  by_cases hrec : RecordsLength pk
  · rw [fragmentPacket_of_records hrec] at h
    cases hframes : fragmentFrames p ⟨packetCid pk, seq, ack⟩ (pk.drop 4) m with
    | error e =>
      rw [hframes] at h
      cases h
    | ok frames =>
      rw [hframes] at h
      cases h
      exact ⟨frames, rfl, fragmentFrames_ok_cases hack hframes⟩
  · rw [fragmentPacket_of_not_records hrec] at h
    cases h

/-- What every frame of FRAGMENT on this state shares. -/
def State.fragArgs (s : State) : FragArgs := ⟨le16 s.packetBytes 2, s.startSeq, s.startAck⟩

/-- The payload of FRAGMENT's packet, IN_BUF[4..PKT_SIZE). -/
def State.fragPayload (s : State) : Bytes := s.packetBytes.drop 4

/-- The split of that payload for FRAG_MTU. -/
def State.fragSplit (s : State) : Split := splitOf (s.pktSize.toNat - 4) s.fragMtu.toNat

@[simp] theorem State.length_fragPayload (s : State) : s.fragPayload.length = s.pktSize.toNat - 4 := by
  rw [State.fragPayload, List.length_drop, s.length_packetBytes]

theorem State.fragPayload_eq (s : State) : s.fragPayload = s.inBuf.readBytes 4 (s.pktSize.toNat - 4) :=
  Memory.drop_readBytes _ _ _ _

/-- A legal packet's size is bounded by its 16-bit recorded length (42_fragment.md R191). -/
theorem State.packetLegal.size_range {s : State} (h : s.packetLegal) : 4 ≤ s.pktSize.toNat ∧ s.pktSize.toNat ≤ 65539 := by
  obtain ⟨_, h4, hrec⟩ := h
  have := (le16 s.packetBytes 0).isLt
  omega

theorem State.packetLegal.fits {s : State} (h : s.packetLegal) (hm : 11 ≤ s.fragMtu.toNat)
    (hlong : s.fragMtu.toNat < s.pktSize.toNat + 4) : s.fragSplit.Fits s.fragPayload.length s.fragMtu.toNat := by
  obtain ⟨h4, _⟩ := h.size_range
  rw [s.length_fragPayload]
  exact splitOf_fits hm (by omega)

theorem fragmentOutcome_of_too_large {s : State} (h : 0x20000 < s.pktSize.toNat) :
    s.fragmentOutcome block = .error ⟨.capacity, none⟩ := if_pos h

theorem fragmentOutcome_of_not_records {s : State} (hsize : s.pktSize.toNat ≤ 0x20000) (h : ¬ RecordsLength s.packetBytes) :
    s.fragmentOutcome block = .error ⟨.malformed, none⟩ :=
  (if_neg (Nat.not_lt.mpr hsize)).trans (fragmentPacket_of_not_records h)

theorem fragmentOutcome_of_legal {s : State} (h : s.packetLegal) :
    s.fragmentOutcome block =
      (fragmentFrames block s.fragArgs s.fragPayload s.fragMtu.toNat).map (emission (le16 s.packetBytes 2)) := by
  obtain ⟨hsize, hrec⟩ := s.packetLegal_iff.mp h
  exact (if_neg (Nat.not_lt.mpr hsize)).trans (fragmentPacket_of_records hrec)

theorem fragmentOutcome_of_small_mtu {s : State} (h : s.packetLegal) (hm : s.fragMtu.toNat < 11)
    (hlong : s.fragMtu.toNat < s.pktSize.toNat + 4) : s.fragmentOutcome block = .error ⟨.malformed, none⟩ := by
  obtain ⟨h4, _⟩ := h.size_range
  rw [fragmentOutcome_of_legal h, fragmentFrames_of_small_mtu hm (by rw [s.length_fragPayload]; omega)]
  rfl

theorem fragmentOutcome_of_fits {s : State} (h : s.packetLegal) (hfit : s.pktSize.toNat + 4 ≤ s.fragMtu.toNat) :
    s.fragmentOutcome block = .ok (emission (le16 s.packetBytes 2) [loneFrame block s.fragArgs s.fragPayload]) := by
  obtain ⟨h4, _⟩ := h.size_range
  rw [fragmentOutcome_of_legal h, fragmentFrames_of_fits rfl (by rw [s.length_fragPayload]; omega)]
  rfl

theorem fragmentOutcome_of_longer {s : State} (h : s.packetLegal) (hm : 11 ≤ s.fragMtu.toNat)
    (hlong : s.fragMtu.toNat < s.pktSize.toNat + 4) :
    s.fragmentOutcome block =
      .ok (emission (le16 s.packetBytes 2) (setFrames block s.fragArgs s.fragSplit s.fragPayload)) := by
  obtain ⟨h4, hmax⟩ := h.size_range
  have hlen := s.length_fragPayload
  rw [fragmentOutcome_of_legal h, fragmentFrames_block_of_longer (by omega) hm (by omega), hlen]
  rfl

/-- FRAGMENT succeeds exactly for a legal packet that fits one frame or an MTU that can carry a set (42_fragment.md R201). -/
theorem fragmentOutcome_ok_iff (s : State) :
    (∃ r, s.fragmentOutcome block = .ok r) ↔
      s.packetLegal ∧ (s.pktSize.toNat + 4 ≤ s.fragMtu.toNat ∨ 11 ≤ s.fragMtu.toNat) := by
  constructor
  · rintro ⟨r, hr⟩
    have hne (e : Failure) : s.fragmentOutcome block ≠ .error e := by simp [hr]
    have hsize : s.pktSize.toNat ≤ 0x20000 := by
      by_contra hlarge
      exact hne _ (fragmentOutcome_of_too_large (by omega))
    have hlegal : s.packetLegal := by
      by_contra hbad
      exact hne _ (fragmentOutcome_of_not_records hsize fun hrec => hbad (s.packetLegal_iff.mpr ⟨hsize, hrec⟩))
    refine ⟨hlegal, ?_⟩
    by_contra hmtu
    exact hne _ (fragmentOutcome_of_small_mtu hlegal (by omega) (by omega))
  · rintro ⟨hlegal, hmtu⟩
    by_cases hfit : s.pktSize.toNat + 4 ≤ s.fragMtu.toNat
    · exact ⟨_, fragmentOutcome_of_fits hlegal hfit⟩
    · exact ⟨_, fragmentOutcome_of_longer hlegal (hmtu.resolve_left hfit) (by omega)⟩

theorem exec_fragment (s : State) : exec .fragment s = .next (s.complete (s.fragmentOutcome block)) := rfl

/-- A failing outcome of FRAGMENT is what the host then finds (60_exceptions.md R243). -/
theorem exec_fragment_of_error {s : State} {e : Failure} (h : s.fragmentOutcome block = .error e) :
    ∃ t, exec .fragment s = .next t ∧ FailedWith e s t :=
  ⟨s.completeFail e, by rw [exec_fragment, h]; rfl, failedWith_completeFail e s⟩

/-- A success of FRAGMENT writes its output from byte 0 up and its results (60_exceptions.md R244). -/
theorem exec_fragment_of_ok {s : State} {r : Success} (h : s.fragmentOutcome block = .ok r) :
    ∃ t, exec .fragment s = .next t ∧ SucceededWith r.cid r.len r.nframes r.out s t :=
  ⟨s.completeOk r, by rw [exec_fragment, h]; rfl, succeededWith_completeOk r s⟩

/-! ### Built frames -/

/-- A frame whose length prefix counts it (30_encoding.md R95). -/
def CountsItself (f : Bytes) : Prop := (le16 f 0).toNat + 4 = f.length

theorem countsItself_build (p : Config.Params) (cid : Half) (sb ab : Byte) (tl : Option Half) (pay : Bytes)
    (h : (build p cid sb ab tl pay).length ≤ 65539) : CountsItself (build p cid sb ab tl pay) := by
  obtain ⟨hcount, _⟩ := builtFramePassesItsOwnChecks p cid sb ab tl pay (by omega)
  have hlen := length_build p cid sb ab tl pay
  rw [CountsItself, hcount]
  omega

theorem checksum_build (p : Config.Params) (cid : Half) (sb ab : Byte) (tl : Option Half) (pay : Bytes) :
    le16 (build p cid sb ab tl pay) ((build p cid sb ab tl pay).length - 2) =
      fcs p.fcsTable ((build p cid sb ab tl pay).take ((build p cid sb ab tl pay).length - 2)) :=
  eq_of_beq (checksumOk_build p cid sb ab tl pay)

/-- The SAR code and the ack field of an ack/segmentation byte (30_encoding.md R99). -/
theorem sarCode_ackField_of_byteAt_five {f : Bytes} {sar : BitVec 2} {ack : BitVec 6} (h : byteAt f 5 = sarByte sar ack) :
    sarCode f = sar ∧ ackField f = ack := by
  rw [sarCode, ackField, h]
  exact ⟨sarByte_sar sar ack, sarByte_ack sar ack⟩

/-! ### One frame -/

theorem countsItself_loneFrame (p : Config.Params) (a : FragArgs) {pay : Bytes} {m : Nat} (h : pay.length + 8 ≤ m)
    (hm : m ≤ 65535) : CountsItself (loneFrame p a pay) :=
  countsItself_build _ _ _ _ _ _ (by
    rw [← loneFrame, length_loneFrame]
    omega)

/-- The bytes of a lone frame before its checksum, from the registers and IN_BUF (42_fragment.md R195). -/
def State.loneBody (s : State) : Bytes :=
  bytesLE16 (BitVec.ofNat 16 s.pktSize.toNat) ++
    [s.inBuf.read 2, s.inBuf.read 3, s.startSeq, 0b00#2 ++ s.startAck.extractLsb' 0 6] ++
    s.inBuf.readBytes 4 (s.pktSize.toNat - 4)

/-- The lone frame of a packet is that body and its checksum. -/
theorem State.packetLegal.loneFrame_eq {s : State} (h : s.packetLegal) :
    loneFrame block s.fragArgs s.fragPayload = s.loneBody ++ bytesLE16 (fcs block.fcsTable s.loneBody) := by
  obtain ⟨h4, _⟩ := h.size_range
  have hcid : bytesLE16 s.fragArgs.cid = [s.inBuf.read 2, s.inBuf.read 3] := by
    rw [← State.byteAt_packetBytes (by omega), ← State.byteAt_packetBytes (by omega)]
    exact bytesLE16_le16 _ _
  have hbody : buildBody s.fragArgs.cid s.fragArgs.seq (sarByte sarUnsegmented s.fragArgs.ackLow) none s.fragPayload =
      s.loneBody := by
    rw [buildBody, buildHeader, hcid, s.fragPayload_eq, List.length_append, Memory.length_readBytes]
    simp only [List.length_append, List.length_cons, List.length_nil, Nat.zero_add, Nat.reduceAdd,
      Nat.add_sub_cancel' h4]
    rfl
  rw [loneFrame, build, hbody]

/-- A packet that fits one frame leaves the lone frame, of 8 bytes more than its payload (42_fragment.md R194, R195). -/
theorem exec_fragment_of_fits {s : State} (h : s.packetLegal) (hfit : s.pktSize.toNat + 4 ≤ s.fragMtu.toNat) :
    ∃ t, exec .fragment s = .next t ∧
      SucceededWith (le16 s.packetBytes 2) (s.pktSize.toNat + 4) 1
        (s.loneBody ++ bytesLE16 (fcs block.fcsTable s.loneBody)) s t := by
  obtain ⟨h4, _⟩ := h.size_range
  have hlen : (loneFrame block s.fragArgs s.fragPayload).length = s.pktSize.toNat + 4 := by
    rw [length_loneFrame, s.length_fragPayload]
    omega
  have hemit : emission (le16 s.packetBytes 2) [loneFrame block s.fragArgs s.fragPayload] =
      ⟨le16 s.packetBytes 2, s.pktSize.toNat + 4, 1, s.loneBody ++ bytesLE16 (fcs block.fcsTable s.loneBody)⟩ := by
    rw [emission, List.flatten_singleton, hlen, h.loneFrame_eq]
    rfl
  exact exec_fragment_of_ok ((fragmentOutcome_of_fits h hfit).trans (congrArg Except.ok hemit))

/-! ### The frames of a set -/

/-- Where frame i's payload ends: the next frame's begins there, and the last frame's ends the payload (42_fragment.md
R198). -/
theorem Split.Fits.posAt_add_take {sp : Split} {len m i : Nat} (h : sp.Fits len m) (hi : i < sp.n) :
    sp.posAt i + sp.take i = if i + 1 = sp.n then len else sp.c1 + i * sp.c := by
  have hn := h.n_ge
  by_cases hl : i + 1 = sp.n
  · obtain rfl : i = sp.n - 1 := by omega
    rw [if_pos hl, Split.take, if_neg (by omega), if_pos hl, h.last]
  · rw [if_neg hl, ← Split.posAt_succ (by omega), Split.posAt, if_neg (Nat.succ_ne_zero i), Nat.add_sub_cancel]

theorem FragArgs.seqOf_toNat (a : FragArgs) (i : Nat) : (a.seqOf i).toNat = (a.seq.toNat + 2 * i) % 64 := by
  rw [FragArgs.seqOf, BitVec.toNat_ofNat]
  omega

theorem FragArgs.seqOf_succ_toNat (a : FragArgs) (i : Nat) : (a.seqOf (i + 1)).toNat = ((a.seqOf i).toNat + 2) % 64 := by
  rw [a.seqOf_toNat, a.seqOf_toNat]
  omega

section
variable (p : Config.Params) (a : FragArgs) {sp : Split} {pay : Bytes} {m i : Nat}

theorem channelId_setFrameAt (sp : Split) (pay : Bytes) (i : Nat) : le16 (setFrameAt p a sp pay i) 2 = a.cid :=
  channelId_build ..

theorem seqByte_setFrameAt (sp : Split) (pay : Bytes) (i : Nat) : byteAt (setFrameAt p a sp pay i) 4 = a.seqOf i :=
  seqByte_build ..

theorem byteAt_five_setFrameAt (sp : Split) (pay : Bytes) (i : Nat) :
    byteAt (setFrameAt p a sp pay i) 5 = sarByte (sarOf sp.n i) a.ackLow := byteAt_five_build ..

theorem controls_setFrameAt (sp : Split) (pay : Bytes) (i : Nat) :
    le16 (setFrameAt p a sp pay i) 4 = sarByte (sarOf sp.n i) a.ackLow ++ a.seqOf i := controls_build ..

theorem totalLength_setFrameAt_zero (sp : Split) (pay : Bytes) :
    le16 (setFrameAt p a sp pay 0) 6 = BitVec.ofNat 16 pay.length := totalLength_build ..

theorem checksum_setFrameAt (sp : Split) (pay : Bytes) (i : Nat) :
    le16 (setFrameAt p a sp pay i) ((setFrameAt p a sp pay i).length - 2) =
      fcs p.fcsTable ((setFrameAt p a sp pay i).take ((setFrameAt p a sp pay i).length - 2)) := checksum_build ..

/-- Frame i's payload bytes are the packet's from the frame's own position on (42_fragment.md R198). -/
theorem payload_setFrameAt (sp : Split) (pay : Bytes) (i : Nat) :
    slice (setFrameAt p a sp pay i) (if i = 0 then 8 else 6) ((setFrameAt p a sp pay i).length - 2) =
      slice pay (sp.posAt i) (sp.posAt i + sp.take i) := by
  have h := payload_build p a.cid (a.seqOf i) (sarByte (sarOf sp.n i) a.ackLow)
    (if i = 0 then some (BitVec.ofNat 16 pay.length) else none) (slice pay (sp.posAt i) (sp.posAt i + sp.take i))
  rw [← h]
  by_cases h0 : i = 0
  · subst h0
    rfl
  · rw [if_neg h0, if_neg h0, setFrameAt, setFrame, if_neg h0]
    rfl

/-- No frame of a set is larger than the MTU (42_fragment.md R192). -/
theorem length_setFrameAt_le (h : sp.Fits pay.length m) (hi : i < sp.n) : (setFrameAt p a sp pay i).length ≤ m := by
  have hc := h.c_eq
  have hr := h.r_le
  rw [length_setFrameAt p a h hi]
  split <;> omega

theorem countsItself_setFrameAt (h : sp.Fits pay.length m) (hm : m ≤ 65535) (hi : i < sp.n) :
    CountsItself (setFrameAt p a sp pay i) :=
  countsItself_build _ _ _ _ _ _ (by
    rw [← setFrame, ← setFrameAt]
    exact (length_setFrameAt_le p a h hi).trans (by omega))

end

/-- The set's frame i, read back from the frames written back to back (42_fragment.md R200). -/
theorem slice_setFrames_flatten (p : Config.Params) (a : FragArgs) {sp : Split} {pay : Bytes} {m i : Nat}
    (h : sp.Fits pay.length m) (hi : i < sp.n) :
    slice (setFrames p a sp pay).flatten (i * m) (i * m + if i + 1 = sp.n then sp.r + 8 else m) =
      setFrameAt p a sp pay i := by
  have hlen (j : Nat) (hj : j + 1 < (setFrames p a sp pay).length) : ((setFrames p a sp pay).getD j []).length = m := by
    have hj' : j < (setFrames p a sp pay).length := by omega
    rw [length_setFrames] at hj
    rw [List.getD_eq_getElem _ _ hj', getElem_setFrames, length_setFrameAt p a h (by omega), if_neg (by omega)]
  have hframe := slice_flatten_of_length hlen (i := i) (by rwa [length_setFrames])
  rwa [getElem_setFrames, length_setFrameAt p a h hi] at hframe

/-- The output of FRAGMENT where it emits a set. -/
def State.setOutput (s : State) : Bytes := (setFrames block s.fragArgs s.fragSplit s.fragPayload).flatten

/-- A packet that needs a set leaves the set's frames back to back (42_fragment.md R198, R200). -/
theorem exec_fragment_of_longer {s : State} (h : s.packetLegal) (hm : 11 ≤ s.fragMtu.toNat)
    (hlong : s.fragMtu.toNat < s.pktSize.toNat + 4) :
    ∃ t, exec .fragment s = .next t ∧
      SucceededWith (le16 s.packetBytes 2) s.setOutput.length s.fragSplit.n s.setOutput s t := by
  have hemit := fragmentOutcome_of_longer h hm hlong
  rw [emission, length_setFrames] at hemit
  exact exec_fragment_of_ok hemit

/-! ### Frames found in OUT_BUF by their length prefixes -/

/-- The first frame of an output, by its own length prefix (30_encoding.md R102). -/
theorem take_emission {cid : Half} {frames : List Bytes} {f : Bytes} (hf : frames[0]? = some f) (h : CountsItself f) :
    (emission cid frames).out.take ((le16 (emission cid frames).out 0).toNat + 4) = f := by
  obtain ⟨fs, rfl⟩ : ∃ fs, frames = f :: fs := by
    cases frames with
    | nil => cases hf
    | cons g fs =>
      cases hf
      exact ⟨fs, rfl⟩
  have hlen : (le16 f 0).toNat + 4 = f.length := h
  rw [emission, List.flatten_cons, le16_append_left (by omega), hlen, List.take_left]

theorem le16_take {b : Bytes} {i n : Nat} (h : i + 2 ≤ n) : le16 (b.take n) i = le16 b i := by
  simp [le16, byteAt, List.getElem?_take_of_lt (show i < n by omega), List.getElem?_take_of_lt (show i + 1 < n by omega)]

/-- The bytes a memory holds where frame k of the output stands. -/
theorem readBytes_flatten {mem : Memory} {frames : List Bytes} {k n : Nat}
    (hread : ∀ i, (h : i < frames.flatten.length) → mem.read i = frames.flatten[i]) (hk : k < frames.length)
    (hn : n ≤ (frames[k]).length) : mem.readBytes (frames.take k).flatten.length n = (frames[k]).take n := by
  have hsplit : frames.flatten = (frames.take k).flatten ++ (frames[k] ++ (frames.drop (k + 1)).flatten) := by
    rw [← List.flatten_cons, ← List.drop_eq_getElem_cons hk, ← List.flatten_append, List.take_append_drop]
  have hlen := congrArg List.length hsplit
  rw [List.length_append, List.length_append] at hlen
  apply List.ext_getElem
  · rw [Memory.length_readBytes, List.length_take, Nat.min_eq_left hn]
  · intro i h1 h2
    rw [Memory.length_readBytes] at h1
    rw [Memory.getElem_readBytes, hread _ (by omega), List.getElem_take]
    simp only [hsplit]
    rw [List.getElem_append_right (Nat.le_add_right _ _)]
    simp only [Nat.add_sub_cancel_left]
    exact List.getElem_append_left (by omega)

/-- The memory holds these frames back to back from byte 0 up, and start walks their length prefixes (30_encoding.md R102). -/
structure Walks (mem : Memory) (frames : List Bytes) (start : Nat → Nat) : Prop where
  read : ∀ i, (h : i < frames.flatten.length) → mem.read i = frames.flatten[i]
  counts : ∀ f ∈ frames, CountsItself f
  zero : start 0 = 0
  next : ∀ k < frames.length, start (k + 1) = start k + (le16 (mem.readBytes (start k) 2) 0).toNat + 4

theorem length_flatten_take_succ {frames : List Bytes} {k : Nat} (hk : k < frames.length) :
    (frames.take (k + 1)).flatten.length = (frames.take k).flatten.length + (frames[k]).length := by
  rw [List.take_succ_eq_append_getElem hk, List.flatten_append, List.length_append, List.flatten_singleton]

/-- The walk comes to the start of every frame. -/
theorem Walks.start_eq {mem : Memory} {frames : List Bytes} {start : Nat → Nat} (h : Walks mem frames start) {k : Nat}
    (hk : k ≤ frames.length) : start k = (frames.take k).flatten.length := by
  induction k with
  | zero => exact h.zero
  | succ k ih =>
    have hlen : (le16 (frames[k]) 0).toNat + 4 = (frames[k]).length := h.counts _ (List.getElem_mem _)
    rw [h.next k hk, ih (by omega), readBytes_flatten h.read hk (by omega), le16_take (Nat.le_refl _), Nat.add_assoc, hlen,
      length_flatten_take_succ hk]

/-- The bytes between two stops of the walk are the frame. -/
theorem Walks.readBytes_eq {mem : Memory} {frames : List Bytes} {start : Nat → Nat} (h : Walks mem frames start) {k : Nat}
    (hk : k < frames.length) : mem.readBytes (start k) (start (k + 1) - start k) = frames[k] := by
  rw [h.start_eq hk, h.start_eq (Nat.le_of_lt hk), length_flatten_take_succ hk, Nat.add_sub_cancel_left,
    readBytes_flatten h.read hk (Nat.le_refl _), List.take_length]

/-! ### ASSEMBLE of emitted frames -/

/-- Every frame of a set passes the loop's length check (41_assemble.md R163, R164). -/
theorem lengthOk_set {p : Config.Params} {a : FragArgs} {sp : Split} {pay : Bytes} {m k : Nat} {fr : Nat → Bytes}
    (h : sp.Fits pay.length m) (hm : m ≤ 65535) (hk : k < sp.n) (hfr : fr k = setFrameAt p a sp pay k) :
    LengthOk sp.n fr k := by
  have hn := h.n_ge
  have hc1 := h.c1_eq
  have hc1pos := h.c1_pos
  rw [LengthOk, hfr]
  refine ⟨?_, countsItself_setFrameAt p a h hm hk⟩
  rw [length_setFrameAt p a h hk]
  by_cases h0 : k = 0
  · rw [if_pos ⟨h0, by omega⟩, if_neg (by omega)]
    omega
  · rw [if_neg fun ⟨hfirst, _⟩ => h0 hfirst]
    split <;> omega

theorem checksumMatches_set {p : Config.Params} {a : FragArgs} {sp : Split} {pay : Bytes} {k : Nat} {fr : Nat → Bytes}
    (hfr : fr k = setFrameAt p a sp pay k) : ChecksumMatches p fr k := by
  rw [ChecksumMatches, hfr]
  exact checksum_setFrameAt ..

/-- Frames 0 to n-1 of fr pass ASSEMBLE's checks under this block's parameters and carry this packet. -/
structure Reassembles (cid : Half) (pay : Bytes) (n : Nat) (fr : Nat → Bytes) : Prop where
  nonempty : n ≠ 0
  single : SingleFrameOk block n fr
  passes : ∀ k < n, FramePasses block n fr k
  cid_eq : le16 (fr 0) 2 = cid
  gathered_eq : gathered n fr n = pay
  total : 1 < n → pay.length = (le16 (fr 0) 6).toNat

/-- The one frame of a packet reassembles (42_fragment.md R201). -/
theorem reassembles_loneFrame {a : FragArgs} {pay : Bytes} {m : Nat} {fr : Nat → Bytes} (h : pay.length + 8 ≤ m)
    (hm : m ≤ 65535) (hfr : fr 0 = loneFrame block a pay) : Reassembles a.cid pay 1 fr where
  nonempty := Nat.one_ne_zero
  single _ := by
    rw [hfr, length_loneFrame]
    exact ⟨by omega, (congrArg (· &&& _) (controls_build ..)).trans (and_mask_sarByte sarUnsegmented a.ackLow a.seq)⟩
  passes k hk := by
    obtain rfl : k = 0 := by omega
    have hcount := countsItself_loneFrame block a h hm
    rw [← hfr] at hcount
    refine ⟨⟨?_, hcount⟩, ?_, rfl, fun h => absurd h (Nat.lt_irrefl 0), fun h => absurd h (Nat.lt_irrefl 1)⟩
    · rw [hfr, length_loneFrame]
      exact Nat.le_add_left _ _
    · rw [ChecksumMatches, hfr]
      exact checksum_build ..
  cid_eq := (congrArg (le16 · 2) hfr).trans (channelId_build ..)
  gathered_eq := by
    show [] ++ slice (fr 0) 6 ((fr 0).length - 2) = pay
    rw [List.nil_append, hfr]
    exact payload_build block a.cid a.seq _ none pay
  total h := absurd h (Nat.lt_irrefl 1)

section
variable {a : FragArgs} {sp : Split} {pay : Bytes} {m : Nat} {fr : Nat → Bytes}

/-- The SAR codes of a set are start, then continuation, then end (42_fragment.md R197). -/
theorem segmentationOk_set {k : Nat} (hfr : fr k = setFrameAt block a sp pay k) : SegmentationOk block sp.n fr k := by
  have hcode : le16 (fr k) 4 &&& block.sarClassMask = sarOf sp.n k ++ 0#14 := by
    rw [hfr, controls_setFrameAt]
    exact and_mask_sarByte ..
  intro hn
  rw [hcode]
  refine ⟨fun h0 => ?_, fun h0 hl => ?_, fun hl => ?_⟩
  · rw [sarOf, if_pos h0]
    rfl
  · rw [sarOf, if_neg (by omega), if_neg (by omega)]
    decide
  · rw [sarOf, if_neg (by omega), if_pos hl]
    rfl

/-- Each frame of a set passes the loop's checks (42_fragment.md R196, R197). -/
theorem framePasses_set (h : sp.Fits pay.length m) (hm : m ≤ 65535) (hfr : ∀ k < sp.n, fr k = setFrameAt block a sp pay k)
    {k : Nat} (hk : k < sp.n) : FramePasses block sp.n fr k where
  length := lengthOk_set h hm hk (hfr k hk)
  checksum := checksumMatches_set (hfr k hk)
  channel := by rw [ChannelOk, hfr k hk, hfr 0 (by omega), channelId_setFrameAt, channelId_setFrameAt]
  sequence h0 := by
    obtain ⟨j, rfl⟩ : ∃ j, k = j + 1 := ⟨k - 1, by omega⟩
    rw [Nat.add_sub_cancel, hfr _ hk, hfr j (by omega), seqByte_setFrameAt, seqByte_setFrameAt]
    exact a.seqOf_succ_toNat j
  segmentation := segmentationOk_set (hfr k hk)

/-- The payloads of the first frames are the packet's payload up to where the last of them ends (42_fragment.md R198). -/
theorem gathered_set (h : sp.Fits pay.length m) (hfr : ∀ k < sp.n, fr k = setFrameAt block a sp pay k) {k : Nat}
    (hk : k < sp.n) : gathered sp.n fr (k + 1) = slice pay 0 (sp.posAt k + sp.take k) := by
  have hn := h.n_ge
  have hframe (j : Nat) (hj : j < sp.n) : slice (fr j) (if j = 0 ∧ 1 < sp.n then 8 else 6) ((fr j).length - 2) =
      slice pay (sp.posAt j) (sp.posAt j + sp.take j) := by
    rw [hfr j hj, ← payload_setFrameAt block a sp pay j]
    simp only [show 1 < sp.n by omega, and_true]
  induction k with
  | zero => exact hframe 0 hk
  | succ k ih =>
    rw [gathered, hframe _ hk, ih (by omega), ← Split.posAt_succ hk]
    exact slice_append_slice pay (Nat.zero_le _) (Nat.le_add_right _ _)

/-- The frames of a set reassemble (42_fragment.md R201). -/
theorem reassembles_set (h : sp.Fits pay.length m) (hm : m ≤ 65535) (hpay : pay.length ≤ 65535)
    (hfr : ∀ k < sp.n, fr k = setFrameAt block a sp pay k) : Reassembles a.cid pay sp.n fr where
  nonempty := Nat.ne_zero_of_lt h.n_ge
  single h1 := absurd h1 (Nat.ne_of_gt h.n_ge)
  passes _ hk := framePasses_set h hm hfr hk
  cid_eq := by rw [hfr 0 (Nat.zero_lt_of_lt h.n_ge), channelId_setFrameAt]
  gathered_eq := by
    obtain ⟨k, hk⟩ : ∃ k, sp.n = k + 1 := Nat.exists_eq_add_one.mpr (Nat.zero_lt_of_lt h.n_ge)
    have hlast := gathered_set h hfr (k := k) (by omega)
    rw [h.posAt_add_take (by omega), if_pos hk.symm, slice_zero_length, ← hk] at hlast
    exact hlast
  total _ := by
    rw [hfr 0 (Nat.zero_lt_of_lt h.n_ge), totalLength_setFrameAt_zero, BitVec.toNat_ofNat]
    omega

end

/-- ASSEMBLE accepts frames that reassemble, and its outcome is their packet. -/
theorem Reassembles.assembleOutcome_eq {u : State} {cid : Half} {pay : Bytes}
    (h : Reassembles cid pay u.asmNframes.toNat u.frameBytes) (hmax : u.asmNframes.toNat ≤ 1024)
    (hin : ∀ k < u.asmNframes.toNat, u.frameInside k) :
    u.assembleOutcome block = .ok ⟨cid, pay.length, u.asmNframes.toNat, packetBuffer cid pay⟩ := by
  have haccepts : AssembleAccepts u :=
    ⟨h.nonempty, hmax, hin, h.single, h.passes, h.gathered_eq.symm ▸ h.total⟩
  rw [haccepts.assembleOutcome_eq, h.gathered_eq, h.cid_eq]

/-- ASSEMBLE of frames that carry a packet leaves its packet buffer (41_assemble.md R171). -/
theorem exec_assemble_of_reassembles {u : State} {pk : Bytes} (hrec : RecordsLength pk)
    (h : Reassembles (packetCid pk) (pk.drop 4) u.asmNframes.toNat u.frameBytes) (hmax : u.asmNframes.toNat ≤ 1024)
    (hin : ∀ k < u.asmNframes.toNat, u.frameInside k) :
    ∃ v, exec .assemble u = .next v ∧ v.errCode = 0 ∧ v.resCid = packetCid pk ∧ v.resLen.toNat = pk.length - 4 ∧
      v.outBuf.readBytes 0 pk.length = pk := by
  have hasm := h.assembleOutcome_eq hmax hin
  have hlen := hrec.payload_le
  rw [hrec.packetBuffer_eq] at hasm
  refine ⟨u.completeOk ⟨packetCid pk, (pk.drop 4).length, u.asmNframes.toNat, pk⟩, by rw [exec_assemble, hasm]; rfl, rfl,
    rfl, ?_, Memory.readBytes_writeBytes_self _ _ _⟩
  rw [State.completeOk_resLen, BitVec.toNat_ofNat, ← List.length_drop]
  exact Nat.mod_eq_of_lt (Nat.lt_of_le_of_lt hlen (by decide))

/-- Whatever FRAGMENT emits reassembles, wherever ASSEMBLE finds it (42_fragment.md R201). -/
theorem fragmentOutcome_reassembles {s : State} {r : Success} (h : s.fragmentOutcome block = .ok r) :
    s.packetLegal ∧ ∃ frames, r = emission (le16 s.packetBytes 2) frames ∧ (∀ f ∈ frames, CountsItself f) ∧
      ∀ fr : Nat → Bytes, (∀ k, (hk : k < frames.length) → fr k = frames[k]) →
        Reassembles (le16 s.packetBytes 2) s.fragPayload frames.length fr := by
  obtain ⟨hlegal, hmtu⟩ := (fragmentOutcome_ok_iff s).mp ⟨r, h⟩
  obtain ⟨h4, hmax⟩ := hlegal.size_range
  have hm := s.fragMtu.isLt
  have hlen := s.length_fragPayload
  refine ⟨hlegal, ?_⟩
  by_cases hfit : s.pktSize.toNat + 4 ≤ s.fragMtu.toNat
  · have hlone : s.fragPayload.length + 8 ≤ s.fragMtu.toNat := by omega
    rw [fragmentOutcome_of_fits hlegal hfit] at h
    cases h
    refine ⟨_, rfl, fun f hf => ?_, fun fr hfr => reassembles_loneFrame hlone (by omega) (hfr 0 Nat.one_pos)⟩
    rw [List.mem_singleton.mp hf]
    exact countsItself_loneFrame block s.fragArgs hlone (by omega)
  · have hset := hlegal.fits (hmtu.resolve_left hfit) (by omega)
    rw [fragmentOutcome_of_longer hlegal (hmtu.resolve_left hfit) (by omega)] at h
    cases h
    refine ⟨_, rfl, fun f hf => ?_, fun fr hfr => ?_⟩
    · obtain ⟨i, hi, rfl⟩ := List.mem_map.mp hf
      exact countsItself_setFrameAt block s.fragArgs hset (by omega) (List.mem_range.mp hi)
    · rw [length_setFrames]
      exact reassembles_set (a := s.fragArgs) hset (by omega) (by omega) fun k hk =>
        (hfr k (by rwa [length_setFrames])).trans (getElem_setFrames ..)

/-! ### The wide mask -/

/-- Under the mask 0xE000 a control word keeps ack bit 5, in bit 13 (90_conflicts.md C1). -/
theorem and_wideMask_ne {a : FragArgs} (h : a.ack.getLsbD 5 = true) (sar : BitVec 2) (sb : Byte) {v : Half}
    (hv : v.getLsbD 13 = false) : (sarByte sar a.ackLow ++ sb : BitVec 16) &&& 0xE000#16 ≠ v := by
  rintro rfl
  rw [BitVec.getLsbD_and, BitVec.getLsbD_append, if_neg (by decide), sarByte, BitVec.getLsbD_append, if_pos (by decide),
    FragArgs.ackLow, BitVec.getLsbD_extractLsb', h] at hv
  exact absurd hv (by decide)

section
variable {p : Config.Params} {a : FragArgs} {pay : Bytes} {m : Nat} {fetch : Nat → Except Failure Bytes}

/-- Under the wide mask a lone frame with ack bit 5 set is not unsegmented (41_assemble.md R161). -/
theorem assembleList_loneFrame_of_wideMask (hmask : p.sarClassMask = 0xE000#16) (hbit : a.ack.getLsbD 5 = true)
    (hmax : 1 ≤ p.maxFrames) (hfetch : fetch 0 = .ok (loneFrame p a pay)) :
    assembleList p 1 fetch = .error ⟨.badSegmentation, some 0⟩ := by
  have h6 : 6 ≤ (loneFrame p a pay).length := by
    rw [length_loneFrame]
    omega
  have hseg : isUnsegmented p (controls (loneFrame p a pay)) = false := by
    rw [isUnsegmented, beq_eq_false_iff_ne, hmask, loneFrame, controls_build]
    exact and_wideMask_ne hbit _ _ rfl
  exact assembleList_of_listError (listError_of_segmented hmax rfl hfetch h6 hseg)

/-- Under the wide mask the first frame of a set with ack bit 5 set is no start frame (41_assemble.md R168). -/
theorem assembleList_set_of_wideMask {sp : Split} (hmask : p.sarClassMask = 0xE000#16) (hbit : a.ack.getLsbD 5 = true)
    (hfit : sp.Fits pay.length m) (hm : m ≤ 65535) (hmax : sp.n ≤ p.maxFrames)
    (hfetch : fetch 0 = .ok (setFrameAt p a sp pay 0)) :
    assembleList p sp.n fetch = .error ⟨.badSegmentation, some 0⟩ := by
  have hn := hfit.n_ge
  have hfail : FrameFails p sp.n (fun _ => setFrameAt p a sp pay 0) 0 .badSegmentation := by
    refine .segmentation (lengthOk_set hfit hm (by omega) rfl) (checksumMatches_set rfl) rfl
      (fun h => absurd h (Nat.lt_irrefl 0)) fun hok => ?_
    obtain ⟨hstart, _⟩ := hok (by omega)
    have hcode := hstart rfl
    rw [hmask, controls_setFrameAt] at hcode
    exact and_wideMask_ne hbit _ _ rfl hcode
  have hlist : listError p sp.n fetch = none :=
    listError_eq_none (fr := fun _ => setFrameAt p a sp pay 0) (by omega) hmax (fun h => absurd h (by omega))
      (fun h => absurd h (by omega))
  refine assembleList_of_loop_error hlist (assembleLoop_of_fails (by omega) (fun j hj => ?_)
    (fun j hj => absurd hj (Nat.not_lt_zero j)) hfail)
  rw [Nat.le_zero.mp hj, hfetch]

end

/-! ### The statements -/

/-- Settles O30: a bad packet is refused before the MTU is looked at; an MTU below 8 is below every frame's size. -/
theorem fragmentRefusesInOrder : Obligations.FragmentRefusesInOrder := by
  intro s
  refine ⟨fun hlarge => ?_, fun hshort => ?_, fun h4 hsize hne => ?_, fun hlegal hm => ?_, fun hlegal hm hlong => ?_⟩
  · exact exec_fragment_of_error (fragmentOutcome_of_too_large hlarge)
  · refine exec_fragment_of_error (fragmentOutcome_of_not_records (by omega) ?_)
    rintro ⟨h4, _⟩
    rw [s.length_packetBytes] at h4
    omega
  · refine exec_fragment_of_error (fragmentOutcome_of_not_records hsize ?_)
    rintro ⟨_, hrec⟩
    rw [s.length_packetBytes] at hrec
    exact hne hrec
  · obtain ⟨h4, _⟩ := hlegal.size_range
    exact exec_fragment_of_error (fragmentOutcome_of_small_mtu hlegal (by omega) (by omega))
  · exact exec_fragment_of_error (fragmentOutcome_of_small_mtu hlegal hm hlong)

/-- Settles O31: the code is 0 where frames were emitted; a frame of a legal packet is 8 bytes or more. -/
theorem fragmentSucceedsExactlyWhen : Obligations.FragmentSucceedsExactlyWhen := by
  intro s t h
  cases h
  rw [s.complete_errCode_eq_zero_iff, fragmentOutcome_ok_iff]
  refine and_congr_right fun hlegal => ?_
  obtain ⟨h4, _⟩ := hlegal.size_range
  omega

/-- Settles O27: the lone frame with no payload byte. -/
theorem fragmentOfAnEmptyPacket : Obligations.FragmentOfAnEmptyPacket := by
  intro s h hsize hm
  have hbody : s.loneBody =
      [0x04, 0x00, s.inBuf.read 2, s.inBuf.read 3, s.startSeq, 0b00#2 ++ s.startAck.extractLsb' 0 6] := by
    rw [State.loneBody, hsize]
    rfl
  have hlone := exec_fragment_of_fits h (by omega)
  rwa [hbody, hsize] at hlone

/-- Settles O28: the lone frame. -/
theorem fragmentIntoOneFrame : Obligations.FragmentIntoOneFrame := by
  intro s h _ hfit
  obtain ⟨t, hexec, hok⟩ := exec_fragment_of_fits h hfit
  exact ⟨t, s.loneBody, hexec, rfl, hok⟩

/-- Settles O29: n and r are the greedy split's, and slice i of the output is frame i of the set. -/
theorem fragmentIntoASet : Obligations.FragmentIntoASet := by
  intro s h hm hlong
  obtain ⟨h4, hmax⟩ := h.size_range
  have hlen := s.length_fragPayload
  have hfit := h.fits hm hlong
  have hmtu := s.fragMtu.isLt
  have hc1 : s.fragSplit.c1 = s.fragMtu.toNat - 10 := rfl
  have hc : s.fragSplit.c = s.fragMtu.toNat - 8 := rfl
  obtain ⟨t, hexec, hok⟩ := exec_fragment_of_longer h hm hlong
  refine ⟨s.fragSplit.n, s.fragSplit.r, t, s.setOutput, hfit.n_ge, hfit.r_pos, hfit.r_le, ?_, hexec,
    length_flatten_set block s.fragArgs hfit, hok, ?_⟩
  · rw [← hlen]
    exact hfit.sum
  · rintro i f hi rfl
    rw [State.setOutput, slice_setFrames_flatten block s.fragArgs hfit hi]
    obtain ⟨hsar, hack⟩ :=
      sarCode_ackField_of_byteAt_five (byteAt_five_setFrameAt block s.fragArgs s.fragSplit s.fragPayload i)
    refine ⟨countsItself_setFrameAt _ _ hfit (by omega) hi, length_setFrameAt _ _ hfit hi, channelId_setFrameAt .., ?_,
      hsar, hack, ?_, ?_, checksum_setFrameAt ..⟩
    · rw [seqByte_setFrameAt]
      exact s.fragArgs.seqOf_toNat i
    · rintro rfl
      rw [totalLength_setFrameAt_zero, BitVec.toNat_ofNat, hlen]
      omega
    · rw [payload_setFrameAt, hfit.posAt_add_take hi, hlen, Split.posAt, hc1, hc, State.fragPayload, slice_drop]
      congr 1 <;> split <;> omega

/-- Settles O33: a lone frame is refused by the checks on the list, the first frame of a set by the loop. -/
theorem wideMaskBreaksTheRoundTrip : Obligations.WideMaskBreaksTheRoundTrip := by
  intro p pk m seq ack r fetch hmask hack hbit hm hr hmax hfetch
  obtain ⟨frames, rfl, ⟨hfit, rfl⟩ | ⟨hm11, hlong, rfl⟩⟩ := fragmentPacket_ok_cases hack hr
  · rw [take_emission rfl (countsItself_loneFrame p _ hfit hm)] at hfetch
    exact assembleList_loneFrame_of_wideMask (a := ⟨packetCid pk, seq, ack⟩) hmask hbit hmax hfetch
  · have hfit := splitOf_fits (len := (pk.drop 4).length) hm11 (by omega)
    have hn := hfit.n_ge
    rw [take_emission (getElem?_setFrames _ 0 (by omega)) (countsItself_setFrameAt p _ hfit hm (by omega))] at hfetch
    rw [emission_nframes, length_setFrames] at hmax ⊢
    exact assembleList_set_of_wideMask (a := ⟨packetCid pk, seq, ack⟩) (sp := splitOf _ m) hmask hbit hfit hm hmax hfetch

/-- Settles O32: the walk over the output's length prefixes finds the emitted frames, and those reassemble. -/
theorem fragmentedPacketReassembles : Obligations.FragmentedPacketReassembles := by
  intro s t u start hexec hcode hn hmax h0 hwalk
  cases hexec
  obtain ⟨r, hr⟩ := (s.complete_errCode_eq_zero_iff _).mp hcode
  obtain ⟨hlegal, frames, rfl, hcount, hre⟩ := fragmentOutcome_reassembles hr
  obtain ⟨_, _, hframes⟩ : OutcomeFits (.ok (emission (le16 s.packetBytes 2) frames)) := hr ▸ fragmentOutcome_fits s
  obtain ⟨_, _, _, _, hnf, hread, _⟩ := succeededWith_completeOk (emission (le16 s.packetBytes 2) frames) s
  have hres : (s.completeOk (emission (le16 s.packetBytes 2) frames)).resNframes.toNat = frames.length := by
    rw [hnf, BitVec.toNat_ofNat]
    exact Nat.mod_eq_of_lt (Nat.lt_of_le_of_lt hframes (by decide))
  simp only [hr, State.complete, hres] at hn hmax hwalk ⊢
  have hwalks : Walks (s.completeOk (emission (le16 s.packetBytes 2) frames)).outBuf frames start :=
    ⟨hread, hcount, h0, fun k hk => (hwalk k hk).1⟩
  have hfr (k : Nat) (hk : k < frames.length) : u.frameBytes k = frames[k] := by
    obtain ⟨_, _, hbytes⟩ := hwalk k hk
    rw [hbytes]
    exact hwalks.readBytes_eq hk
  have hin (k : Nat) (hk : k < u.asmNframes.toNat) : u.frameInside k := by
    obtain ⟨_, hinside, _⟩ := hwalk k (by omega)
    exact hinside
  obtain ⟨_, hrec⟩ := s.packetLegal_iff.mp hlegal
  rw [← s.length_packetBytes]
  exact exec_assemble_of_reassembles hrec (hn ▸ hre u.frameBytes hfr) (by omega) hin

end Sys2Proof.Machine
end

section
/-! PROOFS. Host control (43_host_control.md): what a write of each register does in terms of its word and strobes, what a
read of each register answers, and which flags the register-write actions change; after them the statements. -/

namespace Sys2Proof.Machine

/-! ### The flags -/

/-- Whatever becomes of the four flags, nothing else differs. -/
theorem sameButFlags_of_flags (s : State) (ie busy done werr : Bool) :
    SameButFlags s { s with ie := ie, busy := busy, done := done, werr := werr } :=
  ⟨⟨rfl, rfl, rfl, rfl, rfl⟩, ⟨fun _ => rfl, fun _ => rfl⟩, fun _ => rfl, ⟨rfl, rfl, rfl, rfl, rfl⟩, rfl, rfl,
    rfl, rfl, rfl, rfl⟩

/-- A flag after a STATUS write: kept unless its bit is written 1 in an enabled lane. -/
theorem flag_kept_iff (flag enabled bit : Bool) :
    (flag && !(enabled && bit)) = true ↔ flag = true ∧ ¬ (enabled = true ∧ bit = true) := by
  cases enabled <;> simp

/-- With DONE at 0 the IRQ output is 0 (60_exceptions.md R250). -/
theorem irq_of_not_done {s : State} (h : s.done = false) : s.irq = false := by
  rw [State.irq, h, Bool.false_and]

/-- A soft reset is what 70_reset_and_hazards.md R272 says, from every state. -/
theorem softResetOf_softReset (s : State) : SoftResetOf s s.softReset := by
  refine ⟨registersReset_softReset s, rfl, ⟨fun _ => rfl, fun _ => rfl⟩, fun hb a => ?_, fun hb a => ?_, rfl,
    rfl, rfl, rfl, rfl⟩
  · rw [State.softReset_outBuf, hb, if_neg Bool.false_ne_true]
  · rw [State.softReset_outBuf, hb, if_pos rfl, Memory.read_unspecified]

/-! ### Register words -/

theorem ctrlWord_eq (s : State) : s.ctrlWord = if s.ie then 1 else 0 := rfl

theorem getLsbD_ctrlWord {s : State} {i : Nat} (hi : i < 32) : s.ctrlWord.getLsbD i = (s.ie && decide (0 = i)) :=
  getLsbD_flagBit s.ie 0 i hi

/-- STATUS bit by bit (10_state.md R26). -/
theorem getLsbD_statusWord {s : State} {i : Nat} (hi : i < 32) :
    s.statusWord.getLsbD i =
      ((s.busy && decide (0 = i)) || (s.done && decide (1 = i)) || (s.werr && decide (2 = i))) := by
  simp only [State.statusWord, BitVec.getLsbD_or, getLsbD_flagBit _ _ _ hi]

/-- STATUS's three flags (10_state.md R26). -/
theorem statusWord_flags (s : State) :
    s.statusWord.getLsbD 0 = s.busy ∧ s.statusWord.getLsbD 1 = s.done ∧ s.statusWord.getLsbD 2 = s.werr := by
  rw [getLsbD_statusWord (i := 0) (by decide), getLsbD_statusWord (i := 1) (by decide),
    getLsbD_statusWord (i := 2) (by decide)]
  simp

/-- STATUS's bits above WERR are reserved and read 0 (10_state.md R26). -/
theorem getLsbD_statusWord_of_three_le {s : State} {i : Nat} (h : 3 ≤ i) : s.statusWord.getLsbD i = false := by
  by_cases hi : i < 32
  · simp [getLsbD_statusWord hi, show 0 ≠ i by omega, show 1 ≠ i by omega, show 2 ≠ i by omega]
  · exact BitVec.getLsbD_of_ge _ _ (Nat.le_of_not_lt hi)

/-- ERR after a failure: its frame, a zero byte, its code (10_state.md R28, 60_exceptions.md R243). -/
theorem errWord_completeFail (e : Failure) (s : State) :
    (s.completeFail e).errWord = e.errFrame ++ 0#8 ++ e.kind.code := rfl

/-- A 16-bit field reads with 16 reserved bits 0 above it. -/
theorem setWidth_half (v : Half) : v.setWidth 32 = 0#16 ++ v := by
  rw [BitVec.setWidth_eq_append (by decide), BitVec.cast_eq]

theorem lane_zero (i : Nat) : lane 0 i = 0 := BitVec.extractLsb'_zero

theorem lane_setWidth {v : Half} {i : Nat} (hi : i < 2) : lane (v.setWidth 32) i = v.extractLsb' (8 * i) 8 := by
  apply BitVec.eq_of_getLsbD_eq
  intro j hj
  simp only [lane, BitVec.getLsbD_extractLsb', BitVec.getLsbD_setWidth, hj, decide_true, Bool.true_and,
    show 8 * i + j < 32 by omega]

theorem extractLsb'_setWidth {w : Word} {i : Nat} (hi : i < 2) : (w.setWidth 16).extractLsb' (8 * i) 8 = lane w i := by
  apply BitVec.eq_of_getLsbD_eq
  intro j hj
  simp only [lane, BitVec.getLsbD_extractLsb', BitVec.getLsbD_setWidth, hj, decide_true, Bool.true_and,
    show 8 * i + j < 16 by omega]

theorem lane_seqackWord_zero (s : State) : lane s.seqackWord 0 = s.startSeq := BitVec.extractLsb'_append_eq_right

theorem lane_seqackWord_one (s : State) : lane s.seqackWord 1 = s.startAck := by
  apply BitVec.eq_of_getLsbD_eq
  intro j hj
  rw [lane, State.seqackWord, BitVec.getLsbD_extractLsb', BitVec.getLsbD_append, BitVec.getLsbD_append]
  simp [hj]

/-- A 16-bit parameter's strobed write, byte by byte (20_memory.md R66). -/
theorem extractLsb'_mergeLanes_half (v : Half) (w : Word) (strb : BitVec 4) {i : Nat} (hi : i < 2) :
    ((mergeLanes (v.setWidth 32) w strb).setWidth 16).extractLsb' (8 * i) 8 =
      if strb.getLsbD i then lane w i else v.extractLsb' (8 * i) 8 := by
  rw [extractLsb'_setWidth hi, lane_mergeLanes _ _ _ _ (by omega), lane_setWidth hi]

/-! ### Register offsets -/

theorem wordAddr_mod_four (a : Addr) : wordAddr a % 4 = 0 := by simp [wordAddr]

/-- Writes to this register do nothing (43_host_control.md R223). -/
def Reg.IgnoresWrites (r : Reg) : Prop := ∀ (w : Word) (strb : BitVec 4) (s : State), regWrite r w strb s = .next s

/-- ID, ERR, the results and the capacities ignore writes (10_state.md R24, R28, R33 to R36). -/
theorem ignoresWrites_at {a : Nat} (h4 : a % 4 = 0) (h : a = 0x00 ∨ a = 0x10 ∨ (0x24 ≤ a ∧ a ≤ 0x38)) :
    ∃ r, Reg.ofOffset a = some r ∧ r.IgnoresWrites := by
  have hoffset : a = 0x00 ∨ a = 0x10 ∨ a = 0x24 ∨ a = 0x28 ∨ a = 0x2C ∨ a = 0x30 ∨ a = 0x34 ∨ a = 0x38 := by omega
  rcases hoffset with rfl | rfl | rfl | rfl | rfl | rfl | rfl | rfl <;> exact ⟨_, rfl, fun _ _ _ => rfl⟩

/-- Every word address below 0x3C is a register's (10_state.md R23). -/
theorem exists_reg_at {a : Nat} (h4 : a % 4 = 0) (h : a < 0x3C) : ∃ r, Reg.ofOffset a = some r := by
  obtain ⟨k, rfl⟩ : ∃ k, a = 4 * k := ⟨a / 4, by omega⟩
  have hk : k < 15 := by omega
  interval_cases k <;> exact ⟨_, rfl⟩

/-! ### Register writes -/

/-- A CTRL write: lane 0 decides everything (43_host_control.md R225, 20_memory.md R66). -/
theorem regWrite_ctrl (w : Word) (strb : BitVec 4) (s : State) :
    regWrite .ctrl w strb s =
      .next (if strb.getLsbD 0 && w.getLsbD 1 then s.softReset
        else { s with ie := if strb.getLsbD 0 then w.getLsbD 0 else s.ie }) := by
  have hbit (i : Nat) (hi : i < 8) : (mergeLanes s.ctrlWord w strb).getLsbD i =
      if strb.getLsbD 0 then w.getLsbD i else s.ie && decide (0 = i) := by
    rw [getLsbD_mergeLanes _ _ _ _ (by omega), Nat.div_eq_of_lt hi, getLsbD_ctrlWord (by omega)]
  rw [regWrite, State.regRead, runAll_ctrl, hbit 0 (by decide), hbit 1 (by decide)]
  cases strb.getLsbD 0 <;> simp

/-- A STATUS write while BUSY = 0: a disabled lane 0 clears nothing (43_host_control.md R226, 20_memory.md R66). -/
theorem regWrite_status (w : Word) (strb : BitVec 4) {s : State} (h : s.busy = false) :
    regWrite .status w strb s =
      .next { s with
        done := s.done && !(strb.getLsbD 0 && w.getLsbD 1)
        werr := s.werr && !(strb.getLsbD 0 && w.getLsbD 2) } := by
  have hbit (i : Nat) (hi : i < 8) : (mergeLanes 0 w strb).getLsbD i = (strb.getLsbD 0 && w.getLsbD i) := by
    rw [getLsbD_mergeLanes _ _ _ _ (by omega), Nat.div_eq_of_lt hi]
    cases strb.getLsbD 0 <;> simp
  rw [regWrite, runAll_status _ h, hbit 1 (by decide), hbit 2 (by decide)]

/-- A FRAG_SEQACK write: lane 0 is START_SEQ, lane 1 START_ACK (10_state.md R31, 20_memory.md R66). -/
theorem regWrite_fragSeqack (w : Word) (strb : BitVec 4) (s : State) :
    regWrite .fragSeqack w strb s =
      .next { s with
        startSeq := if strb.getLsbD 0 then lane w 0 else s.startSeq
        startAck := if strb.getLsbD 1 then lane w 1 else s.startAck } := by
  rw [regWrite, State.regRead, lane_mergeLanes _ _ _ _ (by decide), lane_mergeLanes _ _ _ _ (by decide),
    lane_seqackWord_zero, lane_seqackWord_one]

/-! ### Arriving accesses -/

/-- The host's move takes one operation and one move off, and changes no register. -/
theorem HostMoves.keeps_registers {op : HostOp} {s s' : State} (h : HostMoves op s s') :
    s'.ie = s.ie ∧ s'.done = s.done ∧ s'.werr = s.werr ∧ SameParams s s' ∧ ∀ r, s'.regRead r = s.regRead r := by
  obtain ⟨turns, ops, _, _, rfl⟩ := h
  exact ⟨rfl, rfl, rfl, ⟨rfl, rfl, rfl, rfl, rfl⟩, fun r => by cases r <;> rfl⟩

/-- A write to a register acts while BUSY = 0, and CTRL's at any time (43_host_control.md R223, R225). -/
theorem step_of_arriving_regWrite {s s' : State} {a : Addr} {w : Word} {strb : BitVec 4} {r : Reg}
    (h : Arrives (.wr a w strb) s s') (hreg : Reg.ofOffset (wordAddr a) = some r)
    (hpass : s.busy = false ∨ r = .ctrl) : step s = regWrite r w strb s' := by
  obtain ⟨hstep, hr⟩ := step_of_arrives h
  obtain ⟨hbusy, _⟩ := h.1.keeps_memories
  have hfilter : s'.busy = false ∨ (Loc.reg r).filtered = false :=
    hpass.imp hbusy.trans fun hctrl => by rw [hctrl, Loc.filtered]
  exact hstep.trans (hostWrite_performed w strb (locate_reg hreg) hr hfilter)

/-- While BUSY = 1 a filtered write sets WERR and does nothing else (43_host_control.md R224). -/
theorem step_of_dropped_write {s s' : State} {a : Addr} {w : Word} {strb : BitVec 4}
    (h : Arrives (.wr a w strb) s s') (hb : s.busy = true) (hc : wordAddr a ≠ 0x04)
    (hres : ¬ ReservedWord (wordAddr a)) : step s = .next { s' with werr := true } := by
  obtain ⟨hstep, hr⟩ := step_of_arrives h
  obtain ⟨hbusy, _⟩ := h.1.keeps_memories
  exact hstep.trans (hostWrite_dropped w strb hr (hbusy.trans hb) hc hres)

theorem not_reservedWord_of_lt {a : Nat} (h : a < 0x3C) : ¬ ReservedWord a := by
  unfold ReservedWord
  omega

/-! ### Register-write actions -/

theorem exec_clrDone_of_idle {s : State} (h : s.busy = false) : exec .clrDone s = .next s.clearDone := by
  simp [exec, execClrDone, h]

theorem exec_clrWerr_of_idle {s : State} (h : s.busy = false) : exec .clrWerr s = .next s.clearWerr := by
  simp [exec, execClrWerr, h]

/-- While BUSY = 1 both clears are dropped writes (43_host_control.md R224). -/
theorem exec_clear_of_busy {s : State} {i : Instr} (h : s.busy = true) (hi : i = .clrDone ∨ i = .clrWerr) :
    exec i s = .next s.dropWrite := by
  rcases hi with rfl | rfl
  · simp [exec, execClrDone, h]
  · simp [exec, execClrWerr, h]

/-! ### The statements -/

/-- Settles O7: lane 0 of the word decides between a soft reset, a new IE and nothing. -/
theorem ctrlWriteActsAtAnyTime : Obligations.CtrlWriteActsAtAnyTime := by
  intro s s' a w strb harr ha
  have hstep : step s = regWrite .ctrl w strb s' := step_of_arriving_regWrite harr (ha ▸ rfl) (.inr rfl)
  obtain ⟨_, hdone, _⟩ := harr.1.keeps_registers
  rw [hstep, regWrite_ctrl]
  refine ⟨fun h0 h1 => ⟨s'.softReset, by rw [h0, h1]; rfl, softResetOf_softReset s'⟩, fun h0 h1 => ⟨?_, ?_⟩, fun h0 => ?_⟩
  · rw [h0, h1]
    rfl
  · rw [State.irq, hdone]
  · rw [h0]
    rfl

/-- Settles O8: each flag is kept unless its bit is written 1 in the enabled lane 0. -/
theorem statusWriteClearsTheNamedFlags : Obligations.StatusWriteClearsTheNamedFlags := by
  intro s s' a w strb harr ha hb
  have hstep : step s = regWrite .status w strb s' := step_of_arriving_regWrite harr (ha ▸ rfl) (.inl hb)
  obtain ⟨hie, hdone, hwerr, _⟩ := harr.1.keeps_registers
  obtain ⟨hbusy, _⟩ := harr.1.keeps_memories
  rw [← hdone, ← hwerr]
  refine ⟨_, hstep.trans (regWrite_status w strb (hbusy.trans hb)), flag_kept_iff _ _ _, flag_kept_iff _ _ _, hie,
    hbusy.trans hb, sameButFlags_of_flags s' s'.ie s'.busy _ _, fun h0 h1 => irq_of_not_done ?_⟩
  simp only [h0, h1, Bool.and_self, Bool.not_true, Bool.and_false]

/-- Settles O9: while BUSY = 0 CMD takes every strobed word, while BUSY = 1 its write is a dropped one. -/
theorem commandWriteIsAccepted : Obligations.CommandWriteIsAccepted := by
  intro s s' a w strb harr ha
  refine ⟨fun hb => ⟨mergeLanes 0 w strb, fun i hi => ?_, ?_, irq_of_not_done rfl⟩, fun hb => ?_⟩
  · rw [lane_mergeLanes _ _ _ _ hi, lane_zero]
  · have hreg : Reg.ofOffset (wordAddr a) = some .cmd := ha ▸ rfl
    exact step_of_arriving_regWrite harr hreg (.inl hb)
  · exact step_of_dropped_write harr hb (by omega) (not_reservedWord_of_lt (by omega))

/-- Settles O10: the filter drops every write but CTRL's and those to reserved addresses, which do nothing. -/
theorem writesWhileBusyAreDropped : Obligations.WritesWhileBusyAreDropped := by
  intro s s' a w strb harr hb hc
  refine ⟨fun hres => ?_, fun hres => step_of_dropped_write harr hb hc hres⟩
  obtain ⟨hstep, _⟩ := step_of_arrives harr
  exact hstep.trans (hostWrite_reserved w strb s' hres)

/-- Settles O12, register by register: a strobed word has the written byte in each enabled lane. -/
theorem parameterWriteStoresItsEnabledLanes : Obligations.ParameterWriteStoresItsEnabledLanes := by
  intro s s' a w strb harr hb
  have hwrite {r : Reg} (hreg : Reg.ofOffset (wordAddr a) = some r) : step s = regWrite r w strb s' :=
    step_of_arriving_regWrite harr hreg (.inl hb)
  obtain ⟨_, _, _, ⟨hasm, hmtu, hseq, hack, hsize⟩, _⟩ := harr.1.keeps_registers
  rw [← hasm, ← hmtu, ← hseq, ← hack, ← hsize]
  refine ⟨fun ha => ⟨_, hwrite (r := .asmNframes) (ha ▸ rfl), fun i hi => ?_⟩,
    fun ha => ⟨_, hwrite (r := .fragMtu) (ha ▸ rfl), fun i hi => ?_⟩,
    fun ha => (hwrite (ha ▸ rfl)).trans (regWrite_fragSeqack w strb s'),
    fun ha => ⟨_, hwrite (r := .pktSize) (ha ▸ rfl), fun i hi => ?_⟩⟩
  · exact extractLsb'_mergeLanes_half s'.asmNframes w strb hi
  · exact extractLsb'_mergeLanes_half s'.fragMtu w strb hi
  · exact lane_mergeLanes s'.pktSize w strb i hi

/-- Settles O13: each of these word addresses is a register whose writes do nothing. -/
theorem readOnlyRegistersIgnoreWrites : Obligations.ReadOnlyRegistersIgnoreWrites := by
  intro s s' a w strb harr hb ha
  obtain ⟨r, hreg, hignores⟩ := ignoresWrites_at (wordAddr_mod_four a) ha
  exact (step_of_arriving_regWrite harr hreg (.inl hb)).trans (hignores w strb s')

/-- Settles O14: a read answers the word of the register at its address, which is made of the register's fields. -/
theorem registerReadsReturnTheirFields : Obligations.RegisterReadsReturnTheirFields := by
  intro s s' a hm hlt
  obtain ⟨r, hreg⟩ := exists_reg_at (wordAddr_mod_four a) hlt
  obtain ⟨_, _, _, _, hregs⟩ := hm.keeps_registers
  have hread := hostRead_reg s' hreg
  rw [hregs] at hread
  refine ⟨s.regRead r, step_of_arriving_read hm hread, ?_⟩
  have hword {x : Nat} {q : Reg} (ha : wordAddr a = x) (hq : Reg.ofOffset x = some q) : s.regRead r = s.regRead q := by
    rw [ha, hq] at hreg
    rw [Option.some.inj hreg]
  refine ⟨fun ha => hword ha rfl, fun ha => (hword ha rfl).trans (ctrlWord_eq s), fun ha => ?_, fun ha => hword ha rfl,
    fun ha => hword ha rfl, fun ha => (hword ha rfl).trans (setWidth_half s.asmNframes),
    fun ha => (hword ha rfl).trans (setWidth_half s.fragMtu), fun ha => hword ha rfl, fun ha => hword ha rfl,
    fun ha => (hword ha rfl).trans (setWidth_half s.resCid), fun ha => hword ha rfl, fun ha => hword ha rfl,
    fun ha => hword ha rfl, fun ha => hword ha rfl, fun ha => hword ha rfl⟩
  have hstatus : s.regRead r = s.statusWord := hword ha rfl
  rw [hstatus]
  obtain ⟨hbusy, hdone, hwerr⟩ := statusWord_flags s
  exact ⟨hbusy, hdone, hwerr, fun i hi => getLsbD_statusWord_of_three_le hi⟩

/-- Settles O6: the engine moves next with the word in the latch, and O5 says what it runs. -/
theorem fetchedWordRunsNext : Obligations.FetchedWordRunsNext := by
  intro s w
  have hlatch : BitVec.ofNat 32 (w.toNat % 2 ^ 32) = w := by
    rw [Nat.mod_eq_of_lt w.isLt, BitVec.ofNat_toNat, BitVec.setWidth_eq]
  have hmoves : EngineMoves (s.withFetchWord 32 w.toNat) { s with latch := w, busy := true, done := false } := by
    refine ⟨s.sched, .inl rfl, ?_⟩
    rw [State.withFetchWord, hlatch]
    rfl
  obtain ⟨hrun, _⟩ := engineMoveRunsTheDecodedLatch _ _ hmoves
  have hdecoded : (s.withFetchWord 32 w.toNat).latch = w := hlatch
  rw [hrun rfl, hdecoded]

/-- Settles O34: INVALID's COMPLETE step is a failure that names no frame. -/
theorem invalidCommandFails : Obligations.InvalidCommandFails := by
  intro rsv opc s
  obtain ⟨_, hdone, _⟩ := statusWord_flags (s.completeFail ⟨.invalidCommand, none⟩)
  exact ⟨s.completeFail ⟨.invalidCommand, none⟩, rfl, failedWith_completeFail _ s,
    (errWord_completeFail _ s).trans (by decide), hdone⟩

/-- Settles O36: the meaning of SET_IE is that one field update, which leaves DONE to gate the IRQ output. -/
theorem setIeStoresIeAlone : Obligations.SetIeStoresIeAlone := by
  intro ie s
  exact ⟨{ s with ie := ie }, rfl, rfl, rfl, rfl, rfl, rfl, sameButFlags_of_flags s ie s.busy s.done s.werr⟩

/-- Settles O37: while BUSY = 0 the two actions are the two clears. -/
theorem clearsChangeOneFlag : Obligations.ClearsChangeOneFlag := by
  intro s hb
  refine ⟨⟨s.clearDone, exec_clrDone_of_idle hb, rfl, rfl, rfl, rfl, irq_of_not_done rfl, ?_⟩,
    ⟨s.clearWerr, exec_clrWerr_of_idle hb, rfl, rfl, rfl, rfl, ?_⟩⟩
  · exact sameButFlags_of_flags s s.ie s.busy false s.werr
  · exact sameButFlags_of_flags s s.ie s.busy s.done false

/-- Settles O38: both clears are the same dropped write. -/
theorem clearsWhileBusyAreDropped : Obligations.ClearsWhileBusyAreDropped := by
  intro s hb i hi
  exact ⟨s.dropWrite, exec_clear_of_busy hb hi, rfl, rfl, rfl, hb, sameButFlags_of_flags s s.ie s.busy s.done true⟩

end Sys2Proof.Machine
end

section
/-! PROOFS. Exceptions (60_exceptions.md): the engine's move with and without a command in flight, how it goes with a dropped
write and with a soft reset, and when the IRQ output rises; after them the statements. -/

namespace Sys2Proof.Machine

/-! ### The engine's move -/

/-- With a command in flight the engine completes it with its outcome (10_state.md R43). -/
theorem engineTurn_of_busy {s : State} (hb : s.busy = true) :
    engineTurn s = .next (s.complete (s.commandOutcome s.latch)) :=
  (if_pos hb).trans (exec_decodeCommand_eq s.latch s)

/-- With nothing in flight the engine's move passes (10_state.md R43). -/
theorem engineTurn_of_idle {s : State} (hb : s.busy = false) : engineTurn s = .next s :=
  if_neg (by simp [hb])

/-! ### Races with a completion -/

/-- WERR is no input of a command and no result: a dropped write and a completion commute (60_exceptions.md R247). -/
theorem State.complete_dropWrite (s : State) (r : Except Failure Success) :
    s.dropWrite.complete r = (s.complete r).dropWrite := by
  cases r <;> rfl

/-- A dropped write leaves a command's outcome, which reads the parameters, DESC and IN_BUF alone (43_host_control.md
R224, 20_memory.md R70). -/
theorem commandOutcome_dropWrite (w : Word) (s : State) : s.dropWrite.commandOutcome w = s.commandOutcome w :=
  commandOutcome_congr ⟨rfl, rfl, rfl, rfl, rfl⟩ ⟨fun _ => rfl, fun _ => rfl⟩ w

theorem SameInBuffers.trans {s t u : State} (hst : SameInBuffers s t) (htu : SameInBuffers t u) : SameInBuffers s u := by
  obtain ⟨hdesc, hin⟩ := hst
  obtain ⟨hdesc', hin'⟩ := htu
  exact ⟨fun a => (hdesc' a).trans (hdesc a), fun a => (hin' a).trans (hin a)⟩

/-! ### The IRQ output -/

/-- The one host write that can raise the IRQ output is a CTRL write of IE: every other one keeps IE, and DONE as it was or
at 0 (60_exceptions.md R250). -/
theorem WriteEffect.irq_rises {s t : State} (h : WriteEffect s t) (hs : s.irq = false) (ht : t.irq = true) :
    s.done = true ∧ s.ie = false ∧ t.ie = true := by
  cases h with
  | setIe ie =>
    have ⟨hdone, hie⟩ : s.done = true ∧ ie = true := by simpa [State.irq] using ht
    exact ⟨hdone, by simpa [State.irq, hdone] using hs, hie⟩
  | softReset => simp [irq_of_registersReset (registersReset_softReset s)] at ht
  | accept w _ => simp [irq_of_not_done (s.accept_done w)] at ht
  | clear d w _ => simp_all [State.irq]
  | _ => exact absurd (hs.symm.trans ht) Bool.false_ne_true

/-- A step that raises the IRQ output completes a command with IE set, or sets IE with DONE set (60_exceptions.md R250). -/
theorem StepEffect.irq_rises {s t : State} (h : StepEffect s t) (hs : s.irq = false) (ht : t.irq = true) :
    (s.busy = true ∧ t.busy = false ∧ s.ie = true) ∨ (s.done = true ∧ s.ie = false ∧ t.ie = true) := by
  cases h with
  | complete rest r hb _ => exact .inl ⟨hb, State.complete_busy _ r, (State.complete_irq { s with sched := rest } r).symm.trans ht⟩
  | write rest ops t _ e => exact .inr (e.irq_rises hs ht)
  | hardReset rest asserted => simp [irq_of_registersReset (registersReset_hardReset asserted _)] at ht
  | read rest ops d rs _ => exact absurd (hs.symm.trans ht) Bool.false_ne_true
  | pass rest => exact absurd (hs.symm.trans ht) Bool.false_ne_true

/-! ### The statements -/

/-- Settles O19: a failing command's record, and nothing else. -/
theorem failureLeavesOnlyItsRecord : Obligations.FailureLeavesOnlyItsRecord := failedWith_completeFail

/-- Settles O20: read after write over the output region, byte by byte. -/
theorem successWritesOnlyItsRegionAndResults : Obligations.SuccessWritesOnlyItsRegionAndResults := succeededWith_completeOk

/-- Settles O45: each thing a step can do is a next state. -/
theorem noStepFaultsOrIsRefused : Obligations.NoStepFaultsOrIsRefused := by
  intro s
  obtain ⟨t, hstep, _⟩ := step_effect s
  exact ⟨t, hstep⟩

/-- Settles O49, by cases on what a step can do. -/
theorem irqRisesOnlyByCompletionOrEnable : Obligations.IrqRisesOnlyByCompletionOrEnable :=
  fun _ _ h hs ht => (stepEffect_of_step h).irq_rises hs ht

/-- Settles O53: the write is dropped, the command's outcome does not see it, and WERR commutes with the completion. -/
theorem droppedWriteBeforeCompletionShowsInWerrAlone : Obligations.DroppedWriteBeforeCompletionShowsInWerrAlone := by
  intro s a w strb hheld hb hctrl hres
  have hdrop : engineTurn s.dropWrite = .next (s.complete (s.commandOutcome s.latch)).dropWrite := by
    rw [engineTurn_of_busy (s.dropWrite_busy.trans hb), s.dropWrite_latch, commandOutcome_dropWrite, s.complete_dropWrite]
  exact ⟨s.dropWrite, _, _, hostWrite_dropped w strb hheld hb hctrl hres, hdrop, engineTurn_of_busy hb, rfl⟩

/-- Settles O54: COMPLETE leaves BUSY at 0, so a soft reset after it keeps OUT_BUF; a soft reset first abandons the command,
so the engine's move passes. -/
theorem softResetRacesEndAtResetValues : Obligations.SoftResetRacesEndAtResetValues := by
  intro s hb
  have hcompleted : (s.complete (s.commandOutcome s.latch)).busy = false := s.complete_busy _
  obtain ⟨_, hbuffers, _⟩ := commandFrame_complete s (s.commandOutcome s.latch)
  obtain ⟨hregs, _, hin, hout, _⟩ := softResetOf_softReset (s.complete (s.commandOutcome s.latch))
  obtain ⟨hregs', _, hin', _, hlost, _⟩ := softResetOf_softReset s
  exact ⟨_, _, _, _, engineTurn_of_busy hb, rfl, rfl, engineTurn_of_idle s.softReset_busy,
    regRead_of_registersReset hregs, regRead_of_registersReset hregs', hbuffers.trans hin, hin', hout hcompleted, hlost hb⟩

end Sys2Proof.Machine
end

section
/-! PROOFS. Reset (70_reset_and_hazards.md): SOFT_RESET's meaning is the state's soft reset; after it the statement. -/

namespace Sys2Proof.Machine

theorem exec_softReset (s : State) : exec .softReset s = .next s.softReset := rfl

/-- Settles O35: SOFT_RESET answers the soft reset of the state, BUSY or not, whose fields R272's lemma states once. -/
theorem softResetResetsTheRegisters : Obligations.SoftResetResetsTheRegisters := by
  intro s
  exact ⟨s.softReset, exec_softReset s, softResetOf_softReset s⟩

end Sys2Proof.Machine
end
